-- ==== Sys2Proof/Word.lean ====
section
/-! DEFINITION. The bit-vector types of KR-IOC (00_scope.md R9, R10): only what the spec treats as bits. -/

namespace Sys2Proof

/-- One byte of pixel memory, of a payload or of an output. -/
abbrev Byte := BitVec 8

/-- A command word, a pixel word, a FourCC value, a registry key, STATUS and CFG: 32 bits. -/
abbrev Word := BitVec 32

/-- A host data register: 64 bits (10_state.md R20). -/
abbrev Dword := BitVec 64

/-- A format identifier: 128 bits (40_codec.md R104). -/
abbrev Ident := BitVec 128

/-- The SLOT field of a command word (30_encoding.md R70). -/
abbrev SlotField := BitVec 8

end Sys2Proof
end

