-- ==== Sys2Proof/Machine/Binary64.lean ====
section
/-! DEFINITION. IEEE 754 binary64 as MS2T uses it (00_scope.md R14; 93_implementation_defined.md G1; log entry 15). -/

namespace Sys2Proof.Machine

/-- What a binary64 pattern denotes. `finite neg m e` is (-1)^neg * m * 2^e. -/
inductive F64 where
  | nan
  | infinite (neg : Bool)
  | finite (neg : Bool) (mant : Nat) (exp : Int)
deriving DecidableEq, Repr

/-- f64(v): the number a 64-bit pattern denotes (R14). -/
def f64 (v : Dword) : F64 :=
  let neg := v.getLsbD 63
  let biased := (v.extractLsb' 52 11).toNat
  let frac := (v.extractLsb' 0 52).toNat
  if biased = 2047 then (if frac = 0 then .infinite neg else .nan)
  else if biased = 0 then .finite neg frac (-1074)
  else .finite neg (2 ^ 52 + frac) ((biased : Int) - 1075)

/-- The numerator of a finite number written as a fraction; 0 for the others. -/
def F64.num : F64 → Int
  | .finite neg m e => (if neg then -1 else 1) * (m * 2 ^ e.toNat : Nat)
  | .nan => 0
  | .infinite _ => 0

/-- The denominator of a finite number written as a fraction, a power of two. -/
def F64.den : F64 → Nat
  | .finite _ _ e => 2 ^ (-e).toNat
  | .nan => 1
  | .infinite _ => 1

/-- How many bits a number takes. -/
def bitLength (n : Nat) : Nat := if n = 0 then 0 else n.log2 + 1

/-- n / 2^k rounded to the nearest integer, ties to even. -/
def shiftRne (n k : Nat) : Nat :=
  let q := n / 2 ^ k
  let r := n % 2 ^ k
  if 2 ^ k < 2 * r ∨ (2 ^ k = 2 * r ∧ q % 2 = 1) then q + 1 else q

/-- The exponent of the last place a binary64 number near mag * 2^exp has: 53 bits of precision, but never below 2^-1074. -/
def lastPlace (mag : Nat) (exp : Int) : Int := max (exp + bitLength mag - 53) (-1074)

/-- (-1)^neg * mag * 2^exp rounded to a binary64 number, to nearest, ties to even; infinite from 2^1024 on. -/
def roundRne (neg : Bool) (mag : Nat) (exp : Int) : F64 :=
  let e := lastPlace mag exp
  let m := if e ≤ exp then mag else shiftRne mag (e - exp).toNat
  let e' := if e ≤ exp then exp else e
  if 1024 < (bitLength m : Int) + e' then .infinite neg else .finite neg m e'

/-- mul_rne(p, q): the binary64 product, rounded to nearest, ties to even (R14). -/
def mulRne : F64 → F64 → F64
  | .finite n₁ m₁ e₁, .finite n₂ m₂ e₂ => roundRne (n₁ != n₂) (m₁ * m₂) (e₁ + e₂)
  | .nan, _ => .nan
  | _, .nan => .nan
  | .infinite n₁, .infinite n₂ => .infinite (n₁ != n₂)
  | .infinite n₁, .finite n₂ m _ => if m = 0 then .nan else .infinite (n₁ != n₂)
  | .finite n₁ m _, .infinite n₂ => if m = 0 then .nan else .infinite (n₁ != n₂)

/-- The binary64 number 10000.0, pattern 0x40C3880000000000. -/
def tenThousand : F64 := f64 0x40C3880000000000

/-- The whole ticks of a product p: trunc(p) when -2^63 <= p < 2^63, none when p is infinite or outside that range (40_codec.md R114). -/
def ticksOf (p : F64) : Option Int :=
  match p with
  | .nan => none
  | .infinite _ => none
  | .finite _ _ _ =>
    if -2 ^ 63 * (p.den : Int) ≤ p.num ∧ p.num < 2 ^ 63 * (p.den : Int) then some (p.num.tdiv p.den) else none

/-- millis to ticks, none where the command raises InvalidArgument (40_codec.md R114). -/
def ticksOfMillis (m : F64) : Option Int :=
  match m with
  | .nan => none
  | .infinite _ => none
  | .finite _ _ _ => ticksOf (mulRne m tenThousand)

end Sys2Proof.Machine
end

