-- ==== Sys2Proof/Syntax.lean ====
section
/-! DEFINITION. The commands of KR-IOC, one constructor for each row of spec/opcode_table.json (30_encoding.md R76). -/

namespace Sys2Proof

/-- A command. A PBU command carries its SLOT field (R77); a BCU command has no slot; neither has an immediate (R74). -/
inductive Instr where
  /-- FOURCC (40_codec.md R102). -/
  | fourcc
  /-- MKID (40_codec.md R106). -/
  | mkid
  /-- MKIDFCC (40_codec.md R107). -/
  | mkidfcc
  /-- PACK2 (40_codec.md R109). -/
  | pack2
  /-- UNPACK2 (40_codec.md R112). -/
  | unpack2
  /-- T2MS (40_codec.md R113). -/
  | t2ms
  /-- MS2T (40_codec.md R114). -/
  | ms2t
  /-- IDFOR (40_codec.md R116). -/
  | idfor
  /-- PBCREATE (41_pixel.md R141). -/
  | pbcreate (slot : SlotField)
  /-- PBGET (41_pixel.md R142). -/
  | pbget (slot : SlotField)
  /-- PBSET (41_pixel.md R143). -/
  | pbset (slot : SlotField)
  /-- PBALPHA (41_pixel.md R144). -/
  | pbalpha (slot : SlotField)
  /-- PBFILL (41_pixel.md R145). -/
  | pbfill (slot : SlotField)
  /-- PBREAD (41_pixel.md R146). -/
  | pbread (slot : SlotField)
  /-- PBFREE (41_pixel.md R147). -/
  | pbfree (slot : SlotField)
  /-- PBDIM (41_pixel.md R148). -/
  | pbdim (slot : SlotField)
  /-- PBSIZE (41_pixel.md R149). -/
  | pbsize (slot : SlotField)
  /-- PBSTRIDE (41_pixel.md R150). -/
  | pbstride (slot : SlotField)
deriving DecidableEq, Repr

/-- The slot a PBU command acts on; none for a BCU command (30_encoding.md R77). -/
def Instr.slot? : Instr → Option SlotField
  | .fourcc | .mkid | .mkidfcc | .pack2 | .unpack2 | .t2ms | .ms2t | .idfor => none
  | .pbcreate n | .pbget n | .pbset n | .pbalpha n | .pbfill n => some n
  | .pbread n | .pbfree n | .pbdim n | .pbsize n | .pbstride n => some n

/-- Whether the command may carry a payload: PBFILL alone (30_encoding.md R71, R78). -/
def Instr.takesPayload : Instr → Bool
  | .pbfill _ => true
  | .fourcc | .mkid | .mkidfcc | .pack2 | .unpack2 | .t2ms | .ms2t | .idfor => false
  | .pbcreate _ | .pbget _ | .pbset _ | .pbalpha _ => false
  | .pbread _ | .pbfree _ | .pbdim _ | .pbsize _ | .pbstride _ => false

end Sys2Proof
end

