-- ==== Sys2Proof/WellFormed.lean ====
section
/-! DEFINITION. The check a decoded command must pass on a block with NUM_SLOTS slots (30_encoding.md R77). -/

namespace Sys2Proof

/-- A command is well formed on a block of `numSlots` slots when its slot, if it names one, exists (R77).
The other checks of R78 (RSVD, reserved opcodes, SLOT of a BCU command) have no ill-formed term: Syntax cannot write one. -/
def Instr.wellFormed (numSlots : Nat) (i : Instr) : Bool :=
  match i.slot? with
  | none => true
  | some n => decide (n.toNat < numSlots)

end Sys2Proof
end

