-- ==== Sys2Proof/Decode.lean ====
section
/-! DEFINITION. Decoding and encoding of command words (30_encoding.md R70, R76, R78, R79).
A command word is a value, not a byte sequence: it has no byte order (20_memory.md R54). -/

namespace Sys2Proof

/-- OPCODE = w[7:0] (R70). -/
def opcodeField (w : Word) : BitVec 8 := w.extractLsb' 0 8

/-- SLOT = w[15:8] (R70). -/
def slotField (w : Word) : SlotField := w.extractLsb' 8 8

/-- RSVD = w[31:16] (R70). -/
def rsvdField (w : Word) : BitVec 16 := w.extractLsb' 16 16

/-- The BCU half of the opcode map (R76). -/
def bcuOfOpcode (op : BitVec 8) : Option Instr :=
  if op = 0x01 then some .fourcc
  else if op = 0x02 then some .mkid
  else if op = 0x03 then some .mkidfcc
  else if op = 0x04 then some .pack2
  else if op = 0x05 then some .unpack2
  else if op = 0x06 then some .t2ms
  else if op = 0x07 then some .ms2t
  else if op = 0x08 then some .idfor
  else none

/-- The PBU half of the opcode map (R76), with the slot the word names (R77). -/
def pbuOfOpcode (op : BitVec 8) (slot : SlotField) : Option Instr :=
  if op = 0x10 then some (.pbcreate slot)
  else if op = 0x11 then some (.pbget slot)
  else if op = 0x12 then some (.pbset slot)
  else if op = 0x13 then some (.pbalpha slot)
  else if op = 0x14 then some (.pbfill slot)
  else if op = 0x15 then some (.pbread slot)
  else if op = 0x16 then some (.pbfree slot)
  else if op = 0x17 then some (.pbdim slot)
  else if op = 0x18 then some (.pbsize slot)
  else if op = 0x19 then some (.pbstride slot)
  else none

/-- The tests of R78 that read the word alone: RSVD, the opcode map, SLOT of a BCU command. Total (R79); none is BadCommand.
The two tests that need the configuration or the payload are `Machine.commandLegal`. -/
def decode (w : Word) : Option Instr :=
  if rsvdField w ≠ 0 then none
  else
    match bcuOfOpcode (opcodeField w) with
    | some i => if slotField w ≠ 0 then none else some i
    | none => pbuOfOpcode (opcodeField w) (slotField w)

/-- The opcode of each command (R76). -/
def opcodeOf : Instr → BitVec 8
  | .fourcc => 0x01
  | .mkid => 0x02
  | .mkidfcc => 0x03
  | .pack2 => 0x04
  | .unpack2 => 0x05
  | .t2ms => 0x06
  | .ms2t => 0x07
  | .idfor => 0x08
  | .pbcreate _ => 0x10
  | .pbget _ => 0x11
  | .pbset _ => 0x12
  | .pbalpha _ => 0x13
  | .pbfill _ => 0x14
  | .pbread _ => 0x15
  | .pbfree _ => 0x16
  | .pbdim _ => 0x17
  | .pbsize _ => 0x18
  | .pbstride _ => 0x19

/-- The SLOT field of a command's word: its slot, or 0 for a BCU command (R77). -/
def slotBitsOf (i : Instr) : SlotField :=
  match i.slot? with
  | none => 0
  | some n => n

/-- The word of a command: RSVD = 0, SLOT, OPCODE (R70; the table of 30_encoding.md section 6). -/
def encode (i : Instr) : Word := 0#16 ++ slotBitsOf i ++ opcodeOf i

/-- The instruction the decoder reads from a table row's word. Every command word is 32 bits (R72). -/
def decodeTableWord (nbits w : Nat) : Option Instr :=
  if w % 2 ^ nbits < 2 ^ 32 then decode (BitVec.ofNat 32 (w % 2 ^ nbits)) else none

end Sys2Proof
end

