-- ==== Sys2Proof/Config.lean ====
section
/-! DEFINITION. The implementation parameters of 00_scope.md section 3, and the one free value that has no body. -/

namespace Sys2Proof

/-- ENDIAN, the native byte order of the block (00_scope.md R5). -/
inductive Endian where
  | little
  | big
deriving DecidableEq, Repr

/-- The parameters fixed before reset is released (00_scope.md R5 to R8; 70_reset_and_hazards.md R224).
DESIGN CHOICE (log entry 1): they stand in State, so that every statement quantifies over them, and no step changes them. -/
structure Config where
  /-- ENDIAN (R5). -/
  endian : Endian
  /-- NUM_SLOTS (R6). -/
  numSlots : Nat
  /-- MAX_BYTES (R7). -/
  maxBytes : Nat
  /-- REGISTRY (R8), a partial function as a list of its pairs (log entry 16). -/
  registry : List (Word × Ident)
deriving DecidableEq, Repr

/-- The ranges 00_scope.md section 3 gives the parameters; REGISTRY is a function, so no key stands twice (R8). -/
abbrev Config.Wf (c : Config) : Prop :=
  1 ≤ c.numSlots ∧ c.numSlots ≤ 256 ∧ c.maxBytes ≤ 2147483647 ∧ (c.registry.map Prod.fst).Nodup

/-- DESIGN CHOICE, unsafe (log entry 1): the parameters the one constant State.reset is written with.
The spec leaves all four OPEN; statements about reset quantify over them instead. -/
def Config.chosen : Config where
  endian := .little
  numSlots := 256
  maxBytes := 2147483647
  registry := []

/-- FREE VALUE (20_memory.md R52; 93_implementation_defined.md U1; log entry 5): the INIT_BYTE draw of the byte at
address `off` of the memory allocated as number `stream`. It has no body: nothing can evaluate it or prove a value of it. -/
opaque Config.initByte : (stream : Nat) → (off : Nat) → Byte

end Sys2Proof
end

