-- ==== Sys2Proof/Machine/Bytes.lean ====
section
/-! DEFINITION. Byte images and byte lanes (00_scope.md R11; 20_memory.md R54, R55). -/

namespace Sys2Proof.Machine

/-- Lane k of a value: bits [8k+7 : 8k] (20_memory.md R55). -/
def lane {w : Nat} (v : BitVec w) (k : Nat) : Byte := v.extractLsb' (8 * k) 8

/-- The lane that byte k of an n-byte image holds (R11): k when ENDIAN = LITTLE, n-1-k when ENDIAN = BIG. -/
def laneOfByte (e : Endian) (n k : Nat) : Nat :=
  match e with
  | .little => k
  | .big => n - 1 - k

/-- Bytes_n(v), the n bytes v occupies in memory, lowest address first (R11). -/
def bytesOf (e : Endian) (n : Nat) {w : Nat} (v : BitVec w) : List Byte :=
  (List.range n).map fun k => lane v (laneOfByte e n k)

/-- The value whose lanes are `bs`, lane 0 first. -/
def fromLanes (w : Nat) : List Byte → BitVec w
  | [] => 0
  | b :: bs => b.setWidth w ||| (fromLanes w bs <<< 8)

/-- FromBytes_n(B), the inverse of Bytes_n (R11), for the n bytes of the list. -/
def fromBytes (e : Endian) (w : Nat) (bs : List Byte) : BitVec w :=
  match e with
  | .little => fromLanes w bs
  | .big => fromLanes w bs.reverse

end Sys2Proof.Machine
end

