-- ==== Sys2Proof/Machine/State.lean ====
section
/-! DEFINITION. The state of KR-IOC as plain data (10_state.md), the reasons a step can stop, and the state after reset (R39). -/

namespace Sys2Proof.Machine

/-- The values of STATUS.CODE (10_state.md R25). Codes 9 to 15 are never written, so they have no name here. -/
inductive Code where
  | ok
  | invalidArgument
  | allocationFailure
  | outOfBounds
  | disposed
  | notFound
  | sizeMismatch
  | slotInUse
  | badCommand
deriving DecidableEq, Repr

/-- STATE[s] of a slot (10_state.md R31). -/
inductive SlotState where
  | empty
  | live
  | disposed
deriving DecidableEq, Repr

/-- The written bytes of one pixel memory: (address, byte) pairs, addresses strictly rising (log entry 7). -/
abbrev Memory := List Host.Cell

/-- What an address that is not listed holds: no written byte. The block then reads the INIT_BYTE draw (20_memory.md R52).
No listed entry equals it, so the second half of the canonical form holds of itself. -/
def Memory.unlisted : Option Byte := none

/-- One entry of the slot table (10_state.md R30). -/
structure Slot where
  /-- STATE[s] (R31). -/
  state : SlotState
  /-- W[s], a signed 32-bit integer (R30, R32). -/
  w : BitVec 32
  /-- H[s], a signed 32-bit integer (R30, R32). -/
  h : BitVec 32
  /-- PM[s]: the bytes commands have written (20_memory.md R50, R52). -/
  mem : Memory
  /-- The model's own: the number of the INIT_BYTE stream PM[s] was allocated with (log entry 5). -/
  fresh : Nat
deriving DecidableEq, Repr

/-- A slot in which no buffer has been created since reset (10_state.md R31, R32, R39). -/
def Slot.unused : Slot where
  state := .empty
  w := 0
  h := 0
  mem := []
  fresh := 0

/-- One action of the world outside on the block, not yet served (log entry 2). -/
inductive HostAction where
  /-- A host write of `value` at window offset `off` (10_state.md R28). At CMD (offset 0) it is a command transaction and
  `payload` is its P (30_encoding.md R71); `allocOk` is the platform's ALLOC_OK draw (00_scope.md R7), which only a PBCREATE reads. -/
  | write (off : Nat) (value : Dword) (payload : List Byte) (allocOk : Bool)
  /-- A host read at window offset `off` (R28). -/
  | read (off : Nat)
  /-- The reset input is asserted between two commands (70_reset_and_hazards.md R220, R221). -/
  | reset
deriving DecidableEq, Repr

/-- What the block delivers to the host (log entry 8). -/
inductive Reply where
  /-- The response of a command transaction: the new STATUS and the output O (30_encoding.md R71). -/
  | command (status : Word) (output : List Byte)
  /-- The value of a host read, a 32-bit register's value zero-extended (log entry 11). -/
  | value (v : Dword)
deriving DecidableEq, Repr

/-- The reasons the machine stops. -/
inductive Fault where
  /-- A failed release of memory, KR's fatal condition (10_state.md R38; 93_implementation_defined.md U8).
  Nothing raises it: release always succeeds in KR-IOC. Safe: it hides nothing (log entry 13). -/
  | releaseFailed
deriving DecidableEq, Repr

/-- The reasons an instruction has no meaning. -/
inductive Refusal where
  /-- An instruction with no meaning yet, by its mnemonic. Raised by no arm: every command has its meaning. Safe. -/
  | notModelled (mnemonic : String)
deriving DecidableEq, Repr

/-- The state: the five data registers, STATUS and the slot table (10_state.md), the configuration, and the model's own
fields that carry transactions and draws. -/
structure State where
  /-- A0 (R20). -/
  a0 : Dword
  /-- A1 (R20). -/
  a1 : Dword
  /-- A2 (R20). -/
  a2 : Dword
  /-- R0 (R20). -/
  r0 : Dword
  /-- R1 (R20). -/
  r1 : Dword
  /-- STATUS.CODE (R24, R25). -/
  code : Code
  /-- STATUS.STICKY (R24, R26). -/
  sticky : Bool
  /-- The slot table, NUM_SLOTS entries (R30). -/
  slots : List Slot
  /-- The configuration (00_scope.md R5 to R8), which no step changes (10_state.md R36). -/
  cfg : Config
  /-- The model's own: host actions not yet served, oldest first (log entry 2). -/
  pending : List HostAction
  /-- The model's own: P of the transaction being served (30_encoding.md R71), empty between commands. -/
  payload : List Byte
  /-- The model's own FREE VALUE: the ALLOC_OK draw of the transaction being served (00_scope.md R7; log entry 4). -/
  allocOk : Bool
  /-- The model's own: how many allocations have drawn an INIT_BYTE stream (log entry 5). -/
  draws : Nat
  /-- The model's own: what the block has delivered to the host, newest first (log entry 8). -/
  replies : List Reply
deriving DecidableEq, Repr

/-- The state after reset of a block with configuration `c` (10_state.md R39). `allocOk` and `draws` are the model's own:
their values here are DESIGN CHOICES no statement rests on (log entries 4, 5). -/
def State.resetWith (c : Config) : State where
  a0 := 0
  a1 := 0
  a2 := 0
  r0 := 0
  r1 := 0
  code := .ok
  sticky := false
  slots := List.replicate c.numSlots Slot.unused
  cfg := c
  pending := []
  payload := []
  allocOk := true
  draws := 0
  replies := []

/-- The state right after reset, for the chosen configuration (log entry 1). -/
def State.reset : State := State.resetWith Config.chosen

end Sys2Proof.Machine
end

