-- ==== Sys2Proof/Machine/Flags.lean ====
section
/-! DEFINITION. STATUS and CFG as the words the host reads (10_state.md R24 to R27). KR-IOC has no other flags (R29). -/

namespace Sys2Proof.Machine

/-- The number of each code in STATUS.CODE (10_state.md R25). -/
def Code.number : Code → BitVec 4
  | .ok => 0
  | .invalidArgument => 1
  | .allocationFailure => 2
  | .outOfBounds => 3
  | .disposed => 4
  | .notFound => 5
  | .sizeMismatch => 6
  | .slotInUse => 7
  | .badCommand => 8

/-- STATUS: CODE at [3:0], STICKY at bit 8, every other bit 0 (10_state.md R24). -/
def statusOf (code : Code) (sticky : Bool) : Word :=
  0#23 ++ BitVec.ofBool sticky ++ 0#4 ++ code.number

/-- STATUS as it stands. -/
def State.statusWord (s : State) : Word := statusOf s.code s.sticky

/-- CFG: ENDIAN at bit 0, SLOTS_M1 at [15:8], every other bit 0 (10_state.md R27). -/
def cfgWord (c : Config) : Word :=
  0#16 ++ BitVec.ofNat 8 (c.numSlots - 1) ++ 0#7 ++ BitVec.ofBool (decide (c.endian = .big))

end Sys2Proof.Machine
end

