-- ==== Sys2Proof/Machine/Operands.lean ====
section
/-! DEFINITION. The data registers, operand assembly and result widening (10_state.md R20; 30_encoding.md R73 to R75). -/

namespace Sys2Proof.Machine

/-- The five data registers, x[0] to x[4] (00_scope.md R13). -/
inductive DataReg where
  | a0
  | a1
  | a2
  | r0
  | r1
deriving DecidableEq, Repr

/-- A read of a data register. -/
def State.reg (s : State) : DataReg → Dword
  | .a0 => s.a0
  | .a1 => s.a1
  | .a2 => s.a2
  | .r0 => s.r0
  | .r1 => s.r1

/-- A write of a data register. -/
def State.setReg (s : State) (r : DataReg) (v : Dword) : State :=
  match r with
  | .a0 => { s with a0 := v }
  | .a1 => { s with a1 := v }
  | .a2 => { s with a2 := v }
  | .r0 => { s with r0 := v }
  | .r1 => { s with r1 := v }

/-- A 32-bit operand: the low half of its register; the high half is ignored (R74). -/
def State.op32 (s : State) (r : DataReg) : Word := (s.reg r).extractLsb' 0 32

/-- The high half of a 64-bit operand, UNPACK2's first value (40_codec.md R112). -/
def State.opHigh32 (s : State) (r : DataReg) : Word := (s.reg r).extractLsb' 32 32

/-- A signed 32-bit operand, s32(A[31:0]) (R74; 00_scope.md R10). -/
def State.opS32 (s : State) (r : DataReg) : Int := (s.op32 r).toInt

/-- A 64-bit operand read as u64 (R74; 00_scope.md R10). -/
def State.opU64 (s : State) (r : DataReg) : Nat := (s.reg r).toNat

/-- A 64-bit operand read as s64 (R74; 00_scope.md R10). -/
def State.opS64 (s : State) (r : DataReg) : Int := (s.reg r).toInt

/-- zext_64 of a 32-bit pattern or unsigned result (R75). -/
def zext64 (v : Word) : Dword := v.setWidth 64

/-- sext_64 of a 32-bit result KR types as signed (R75). -/
def sext64 (v : Word) : Dword := v.signExtend 64

/-- bits_64 of an integer (00_scope.md R10). -/
def bits64 (i : Int) : Dword := BitVec.ofInt 64 i

end Sys2Proof.Machine
end

