-- ==== Sys2Proof/Machine/Ops.lean ====
section
/-! DEFINITION. The shared operations: the error and success reports, the checks every command starts with, pixel memory,
slots, and reset. -/

namespace Sys2Proof.Machine

/-! ### Ending a command -/

/-- The error report, `raise c` (00_scope.md R13; 60_exceptions.md R192): CODE <- c, STICKY <- 1, nothing else of the block
changes, and the output is empty. The transaction is over: its payload is gone and its response is delivered (30_encoding.md R71). -/
def State.raise (s : State) (c : Code) : State :=
  { s with
    code := c
    sticky := true
    payload := []
    replies := .command (statusOf c true) [] :: s.replies }

/-- The success report (60_exceptions.md R193): CODE <- OK, STICKY keeps its value. `out` is the output O of the transaction. -/
def State.succeed (s : State) (out : List Byte) : State :=
  { s with
    code := .ok
    payload := []
    replies := .command (statusOf .ok s.sticky) out :: s.replies }

/-- The tests of 30_encoding.md R78 that need the configuration or the payload: the slot exists, and only PBFILL has a payload. -/
def commandLegal (i : Instr) (s : State) : Bool :=
  i.wellFormed s.cfg.numSlots && (i.takesPayload || s.payload.isEmpty)

/-- One command: BadCommand when a test of R78 fails, before anything of the command is done; else its effect. -/
def runCommand (i : Instr) (s : State) (effect : State) : Host.Outcome State Fault Refusal :=
  .next (if commandLegal i s then effect else s.raise .badCommand)

/-! ### Pixel memory as written bytes -/

/-- The written byte at an address, if there is one. -/
def Memory.read : Memory → Nat → Option Byte
  | [], _ => Memory.unlisted
  | (k, b) :: m, a => if a = k then some b else Memory.read m a

/-- Writing one byte, keeping the addresses strictly rising. -/
def Memory.write : Memory → Nat → Byte → Memory
  | [], a, b => [(a, b)]
  | (k, v) :: m, a, b =>
    if a < k then (a, b) :: (k, v) :: m
    else if a = k then (a, b) :: m
    else (k, v) :: Memory.write m a b

/-- Writing bytes at consecutive addresses from `a` on, in order. -/
def Memory.writeList (m : Memory) (a : Nat) : List Byte → Memory
  | [] => m
  | b :: bs => Memory.writeList (Memory.write m a b) (a + 1) bs

/-- The canonical form of a memory: addresses strictly rising (log entry 7). -/
abbrev Memory.Wf (m : Memory) : Prop := m.Pairwise fun p q => p.1 < q.1

/-! ### Slots -/

/-- STATE[s] = LIVE (10_state.md R31). -/
abbrev Slot.isLive (sl : Slot) : Prop := sl.state = .live

/-- W[s] as an integer. -/
def Slot.width (sl : Slot) : Int := sl.w.toInt

/-- H[s] as an integer. -/
def Slot.height (sl : Slot) : Int := sl.h.toInt

/-- SIZE(s) = W[s] * H[s] * 4, exact (10_state.md R33). -/
def Slot.size (sl : Slot) : Int := sl.width * sl.height * 4

/-- COUNT(s) = W[s] * H[s], exact (10_state.md R33). -/
def Slot.count (sl : Slot) : Int := sl.width * sl.height

/-- STRIDE(s) = W[s] * 4, exact (10_state.md R33). -/
def Slot.stride (sl : Slot) : Int := sl.width * 4

/-- MemRead(s:off, 1): the byte PM[s][off], the written byte or, if none was written, its INIT_BYTE draw (00_scope.md R12; 20_memory.md R52). -/
def Slot.byte (sl : Slot) (off : Nat) : Byte :=
  match Memory.read sl.mem off with
  | some b => b
  | none => Config.initByte sl.fresh off

/-- `n` consecutive bytes of PM[s] from `off` on, lowest address first. -/
def Slot.byteList (sl : Slot) (off n : Nat) : List Byte :=
  (List.range n).map fun k => sl.byte (off + k)

/-- MemWrite of consecutive bytes from `off` on (00_scope.md R12). -/
def Slot.writeBytes (sl : Slot) (off : Nat) (bs : List Byte) : Slot :=
  { sl with mem := Memory.writeList sl.mem off bs }

/-- MemRead(s:off, 4), in ENDIAN order (00_scope.md R12; 20_memory.md R53). -/
def Slot.readWord (sl : Slot) (e : Endian) (off : Nat) : Word :=
  fromBytes e 32 (sl.byteList off 4)

/-- MemWrite(s:off, 4, v), in ENDIAN order (00_scope.md R12; 20_memory.md R53). -/
def Slot.writeWord (sl : Slot) (e : Endian) (off : Nat) (v : Word) : Slot :=
  sl.writeBytes off (bytesOf e 4 v)

/-- The linear index x + y * W[s] of an in-bounds coordinate, none when x < 0, x >= W[s], y < 0 or y >= H[s]
(20_memory.md R51; 41_pixel.md R142). -/
def Slot.pixelIndex (sl : Slot) (x y : Int) : Option Nat :=
  if x < 0 ∨ sl.width ≤ x ∨ y < 0 ∨ sl.height ≤ y then none else some (x + y * sl.width).toNat

/-- One turn of PBALPHA's loop: pixel i's word OR 0xFF000000 (41_pixel.md R144). -/
def Slot.alphaPixel (e : Endian) (sl : Slot) (i : Nat) : Slot :=
  sl.writeWord e (4 * i) (sl.readWord e (4 * i) ||| 0xFF000000)

/-- PBALPHA's loop over pixels 0 to n-1 (41_pixel.md R144). -/
def Slot.alphaPixels (sl : Slot) (e : Endian) (n : Nat) : Slot :=
  (List.range n).foldl (Slot.alphaPixel e) sl

/-- A slot just allocated: LIVE, its dimensions, and memory of which nothing is written, so that every byte is the INIT_BYTE
draw of stream `fresh` (41_pixel.md R141; 20_memory.md R52). -/
def Slot.allocated (w h : BitVec 32) (fresh : Nat) : Slot where
  state := .live
  w := w
  h := h
  mem := []
  fresh := fresh

/-- A slot just released: its memory is gone and its dimensions are 0 (41_pixel.md R147; 10_state.md R32, R34). -/
def Slot.released : Slot where
  state := .disposed
  w := 0
  h := 0
  mem := []
  fresh := 0

/-! ### The slot table -/

/-- Entry n of the slot table. In a state that no run reaches, an entry the table lacks reads as an unused slot (log entry 10). -/
def State.slot (s : State) (n : SlotField) : Slot := s.slots.getD n.toNat Slot.unused

/-- Setting entry n of the slot table. -/
def State.setSlot (s : State) (n : SlotField) (sl : Slot) : State :=
  { s with slots := s.slots.set n.toNat sl }

/-- PBCREATE's success: slot n holds a new buffer, whose bytes are the next INIT_BYTE stream (41_pixel.md R141; log entry 5). -/
def State.allocate (s : State) (n : SlotField) (w h : BitVec 32) : State :=
  { s with
    slots := s.slots.set n.toNat (Slot.allocated w h s.draws)
    draws := s.draws + 1 }

/-- A command that raises Disposed unless its slot is LIVE, tested first (60_exceptions.md R195). -/
def State.onLive (s : State) (n : SlotField) (effect : State) : State :=
  if (s.slot n).isLive then effect else s.raise .disposed

/-! ### Reset -/

/-- Reset (10_state.md R39; 70_reset_and_hazards.md R220): every piece of state to its reset value, the configuration kept.
The model's own fields are not the block's state: the host's queue, what it has received, and the draws go on (log entries 6, 17). -/
def State.applyReset (s : State) : State :=
  { State.resetWith s.cfg with
    pending := s.pending
    allocOk := s.allocOk
    draws := s.draws
    replies := s.replies }

end Sys2Proof.Machine
end

