-- ==== Sys2Proof/Machine/Codec.lean ====
section
/-! DEFINITION. The binary codec unit (40_codec.md). Each command's `…Effect` is its pseudocode; its `exec…` adds the tests of R78. -/

namespace Sys2Proof.Machine

/-! ### Shared functions -/

/-- Byte k of the padded code: the code's own byte below min(nb, 4), else the ASCII space (40_codec.md R101). -/
def fourccByte (w : Word) (nb k : Nat) : Byte := if k < min nb 4 then lane w k else 0x20

/-- FourCCValue(cnt, w, nb); none is InvalidArgument (40_codec.md R101). -/
def fourccValue (e : Endian) (cnt : Nat) (w : Word) (nb : Nat) : Option Word :=
  if cnt = 0 ∨ 4 < cnt then none
  else some (fromBytes e 32 ((List.range 4).map (fourccByte w nb)))

/-- SUFFIX, the video-subtype suffix, from its ten fields (40_codec.md R103). -/
def suffix : BitVec 96 :=
  0x0000#16 ++ 0x0010#16 ++ 0x80#8 ++ 0x00#8 ++ 0x00#8 ++ 0xAA#8 ++ 0x00#8 ++ 0x38#8 ++ 0x9B#8 ++ 0x71#8

/-- BuildId(v) = v : SUFFIX (40_codec.md R104). -/
def buildId (v : Word) : Ident := v ++ suffix

/-- IdBytes(ID), the serialization of KR's byte list, most significant byte first (40_codec.md R105).
The block stores no identifier in memory; a host uses this. -/
def idBytes (id : Ident) : List Byte := (List.range 16).map fun k => id.extractLsb' (120 - 8 * k) 8

/-- R0 <- ID[127:64], R1 <- ID[63:0] (40_codec.md R104). -/
def State.returnId (s : State) (id : Ident) : State :=
  (s.setReg .r0 (id.extractLsb' 64 64)).setReg .r1 (id.extractLsb' 0 64)

/-- PackIntPair(a, b) = a : b (40_codec.md R108). -/
def packIntPair (a b : Word) : Dword := a ++ b

/-- The image a little-endian host stores for a pair (40_codec.md R108). -/
def encodeLittleEndianPair (a b : Word) : List Byte := bytesOf .little 4 b ++ bytesOf .little 4 a

/-- The image a big-endian host stores for a pair (40_codec.md R108). -/
def encodeBigEndianPair (a b : Word) : List Byte := bytesOf .big 4 a ++ bytesOf .big 4 b

/-- REGISTRY(d) of a registry given as its pairs (00_scope.md R8; 40_codec.md R116). -/
def registryLookup : List (Word × Ident) → Word → Option Ident
  | [], _ => none
  | (k, id) :: rest, d => if d = k then some id else registryLookup rest d

/-! ### Commands -/

/-- FOURCC (40_codec.md R102). -/
def fourccEffect (s : State) : State :=
  match fourccValue s.cfg.endian (s.opU64 .a0) (s.op32 .a1) (s.opU64 .a2) with
  | none => s.raise .invalidArgument
  | some v => (s.setReg .r0 (zext64 v)).succeed []

/-- FOURCC. -/
def execFourcc (s : State) : Host.Outcome State Fault Refusal := runCommand .fourcc s (fourccEffect s)

/-- MKID (40_codec.md R106). -/
def mkidEffect (s : State) : State := (s.returnId (buildId (s.op32 .a0))).succeed []

/-- MKID. -/
def execMkid (s : State) : Host.Outcome State Fault Refusal := runCommand .mkid s (mkidEffect s)

/-- MKIDFCC (40_codec.md R107). -/
def mkidfccEffect (s : State) : State :=
  match fourccValue s.cfg.endian (s.opU64 .a0) (s.op32 .a1) (s.opU64 .a2) with
  | none => s.raise .invalidArgument
  | some v => (s.returnId (buildId v)).succeed []

/-- MKIDFCC. -/
def execMkidfcc (s : State) : Host.Outcome State Fault Refusal := runCommand .mkidfcc s (mkidfccEffect s)

/-- PACK2 (40_codec.md R109). -/
def pack2Effect (s : State) : State := (s.setReg .r0 (packIntPair (s.op32 .a0) (s.op32 .a1))).succeed []

/-- PACK2. -/
def execPack2 (s : State) : Host.Outcome State Fault Refusal := runCommand .pack2 s (pack2Effect s)

/-- UNPACK2 (40_codec.md R111, R112). -/
def unpack2Effect (s : State) : State :=
  ((s.setReg .r0 (sext64 (s.opHigh32 .a0))).setReg .r1 (sext64 (s.op32 .a0))).succeed []

/-- UNPACK2. -/
def execUnpack2 (s : State) : Host.Outcome State Fault Refusal := runCommand .unpack2 s (unpack2Effect s)

/-- T2MS (40_codec.md R113). -/
def t2msEffect (s : State) : State := (s.setReg .r0 (bits64 ((s.opS64 .a0).tdiv 10000))).succeed []

/-- T2MS. -/
def execT2ms (s : State) : Host.Outcome State Fault Refusal := runCommand .t2ms s (t2msEffect s)

/-- MS2T (40_codec.md R114). -/
def ms2tEffect (s : State) : State :=
  match ticksOfMillis (f64 (s.reg .a0)) with
  | none => s.raise .invalidArgument
  | some t => (s.setReg .r0 (bits64 t)).succeed []

/-- MS2T. -/
def execMs2t (s : State) : Host.Outcome State Fault Refusal := runCommand .ms2t s (ms2tEffect s)

/-- IDFOR (40_codec.md R116). -/
def idforEffect (s : State) : State :=
  match registryLookup s.cfg.registry (s.op32 .a0) with
  | none => s.raise .notFound
  | some id => (s.returnId id).succeed []

/-- IDFOR. -/
def execIdfor (s : State) : Host.Outcome State Fault Refusal := runCommand .idfor s (idforEffect s)

end Sys2Proof.Machine
end

