-- ==== Sys2Proof/Machine/Pixel.lean ====
section
/-! DEFINITION. The pixel buffer unit (41_pixel.md). Each command's `…Effect` is its pseudocode; its `exec…` adds the tests of
30_encoding.md R78. `n` is the SLOT field. -/

namespace Sys2Proof.Machine

/-- PBCREATE (41_pixel.md R141): SlotInUse, then InvalidArgument, then AllocationFailure, then the allocation. -/
def pbcreateEffect (n : SlotField) (s : State) : State :=
  if (s.slot n).isLive then s.raise .slotInUse
  else if s.opS32 .a0 < 0 ∨ s.opS32 .a1 < 0 then s.raise .invalidArgument
  else if 2147483647 < s.opS32 .a0 * s.opS32 .a1 * 4 ∨ (s.cfg.maxBytes : Int) < s.opS32 .a0 * s.opS32 .a1 * 4 then
    s.raise .allocationFailure
  else if s.allocOk = false then s.raise .allocationFailure
  else (s.allocate n (s.op32 .a0) (s.op32 .a1)).succeed []

/-- PBCREATE. -/
def execPbcreate (n : SlotField) (s : State) : Host.Outcome State Fault Refusal :=
  runCommand (.pbcreate n) s (pbcreateEffect n s)

/-- PBGET (41_pixel.md R142). -/
def pbgetEffect (n : SlotField) (s : State) : State :=
  s.onLive n <|
    match (s.slot n).pixelIndex (s.opS32 .a0) (s.opS32 .a1) with
    | none => s.raise .outOfBounds
    | some i => (s.setReg .r0 (zext64 ((s.slot n).readWord s.cfg.endian (4 * i)))).succeed []

/-- PBGET. -/
def execPbget (n : SlotField) (s : State) : Host.Outcome State Fault Refusal :=
  runCommand (.pbget n) s (pbgetEffect n s)

/-- PBSET (41_pixel.md R143). -/
def pbsetEffect (n : SlotField) (s : State) : State :=
  s.onLive n <|
    match (s.slot n).pixelIndex (s.opS32 .a0) (s.opS32 .a1) with
    | none => s.raise .outOfBounds
    | some i => (s.setSlot n ((s.slot n).writeWord s.cfg.endian (4 * i) (s.op32 .a2))).succeed []

/-- PBSET. -/
def execPbset (n : SlotField) (s : State) : Host.Outcome State Fault Refusal :=
  runCommand (.pbset n) s (pbsetEffect n s)

/-- PBALPHA (41_pixel.md R144). -/
def pbalphaEffect (n : SlotField) (s : State) : State :=
  s.onLive n <|
    (s.setSlot n ((s.slot n).alphaPixels s.cfg.endian (s.slot n).count.toNat)).succeed []

/-- PBALPHA. -/
def execPbalpha (n : SlotField) (s : State) : Host.Outcome State Fault Refusal :=
  runCommand (.pbalpha n) s (pbalphaEffect n s)

/-- PBFILL (41_pixel.md R145). -/
def pbfillEffect (n : SlotField) (s : State) : State :=
  s.onLive n <|
    if (s.slot n).size < (s.payload.length : Int) then s.raise .sizeMismatch
    else (s.setSlot n ((s.slot n).writeBytes 0 s.payload)).succeed []

/-- PBFILL. -/
def execPbfill (n : SlotField) (s : State) : Host.Outcome State Fault Refusal :=
  runCommand (.pbfill n) s (pbfillEffect n s)

/-- PBREAD (41_pixel.md R146). -/
def pbreadEffect (n : SlotField) (s : State) : State :=
  s.onLive n <| s.succeed ((s.slot n).byteList 0 (s.slot n).size.toNat)

/-- PBREAD. -/
def execPbread (n : SlotField) (s : State) : Host.Outcome State Fault Refusal :=
  runCommand (.pbread n) s (pbreadEffect n s)

/-- PBFREE (41_pixel.md R147): releases a LIVE slot, else nothing changes; OK in both branches. -/
def pbfreeEffect (n : SlotField) (s : State) : State :=
  (if (s.slot n).isLive then s.setSlot n Slot.released else s).succeed []

/-- PBFREE. -/
def execPbfree (n : SlotField) (s : State) : Host.Outcome State Fault Refusal :=
  runCommand (.pbfree n) s (pbfreeEffect n s)

/-- PBDIM (41_pixel.md R148). -/
def pbdimEffect (n : SlotField) (s : State) : State :=
  ((s.setReg .r0 (sext64 (s.slot n).w)).setReg .r1 (sext64 (s.slot n).h)).succeed []

/-- PBDIM. -/
def execPbdim (n : SlotField) (s : State) : Host.Outcome State Fault Refusal :=
  runCommand (.pbdim n) s (pbdimEffect n s)

/-- PBSIZE (41_pixel.md R149). -/
def pbsizeEffect (n : SlotField) (s : State) : State :=
  ((s.setReg .r0 (bits64 (s.slot n).size)).setReg .r1 (bits64 (s.slot n).count)).succeed []

/-- PBSIZE. -/
def execPbsize (n : SlotField) (s : State) : Host.Outcome State Fault Refusal :=
  runCommand (.pbsize n) s (pbsizeEffect n s)

/-- PBSTRIDE (41_pixel.md R150). -/
def pbstrideEffect (n : SlotField) (s : State) : State :=
  (s.setReg .r0 (bits64 (s.slot n).stride)).succeed []

/-- PBSTRIDE. -/
def execPbstride (n : SlotField) (s : State) : Host.Outcome State Fault Refusal :=
  runCommand (.pbstride n) s (pbstrideEffect n s)

end Sys2Proof.Machine
end

