-- ==== Sys2Proof/Machine/Dispatch.lean ====
section
/-! DEFINITION. One arm per command: each calls its meaning (30_encoding.md R76). -/

namespace Sys2Proof.Machine

def exec (i : Instr) (s : State) : Host.Outcome State Fault Refusal :=
  match i with
  -- binary codec unit (40_codec.md)
  | .fourcc => Sys2Proof.Machine.execFourcc s
  | .mkid => Sys2Proof.Machine.execMkid s
  | .mkidfcc => Sys2Proof.Machine.execMkidfcc s
  | .pack2 => Sys2Proof.Machine.execPack2 s
  | .unpack2 => Sys2Proof.Machine.execUnpack2 s
  | .t2ms => Sys2Proof.Machine.execT2ms s
  | .ms2t => Sys2Proof.Machine.execMs2t s
  | .idfor => Sys2Proof.Machine.execIdfor s
  -- pixel buffer unit (41_pixel.md)
  | .pbcreate n => Sys2Proof.Machine.execPbcreate n s
  | .pbget n => Sys2Proof.Machine.execPbget n s
  | .pbset n => Sys2Proof.Machine.execPbset n s
  | .pbalpha n => Sys2Proof.Machine.execPbalpha n s
  | .pbfill n => Sys2Proof.Machine.execPbfill n s
  | .pbread n => Sys2Proof.Machine.execPbread n s
  | .pbfree n => Sys2Proof.Machine.execPbfree n s
  | .pbdim n => Sys2Proof.Machine.execPbdim n s
  | .pbsize n => Sys2Proof.Machine.execPbsize n s
  | .pbstride n => Sys2Proof.Machine.execPbstride n s

end Sys2Proof.Machine
end

