-- ==== Sys2Proof/Machine/Window.lean ====
section
/-! DEFINITION. The host register window (10_state.md R28) and the notation of host programs (30_encoding.md R80, R81). -/

namespace Sys2Proof.Machine

/-- The value of a host read at a window offset; 0 where no register stands, and for CMD (10_state.md R23, R28). -/
def readWindow (off : Nat) (s : State) : Dword :=
  if off = 0x04 then zext64 s.statusWord
  else if off = 0x08 then zext64 (cfgWord s.cfg)
  else if off = 0x10 then s.reg .a0
  else if off = 0x18 then s.reg .a1
  else if off = 0x20 then s.reg .a2
  else if off = 0x28 then s.reg .r0
  else if off = 0x30 then s.reg .r1
  else 0

/-- A host write at a window offset other than CMD's: only A0, A1 and A2 take it (10_state.md R20, R24, R27, R28). -/
def writeWindow (off : Nat) (v : Dword) (s : State) : State :=
  if off = 0x10 then s.setReg .a0 v
  else if off = 0x18 then s.setReg .a1 v
  else if off = 0x20 then s.setReg .a2 v
  else s

/-- Delivering the value of a host read. -/
def State.deliver (s : State) (v : Dword) : State := { s with replies := .value v :: s.replies }

/-- The registers a line of a host program names (30_encoding.md R80), and CMD (10_state.md R28). -/
inductive HostReg where
  | cmd
  | status
  | cfg
  | a0
  | a1
  | a2
  | r0
  | r1
deriving DecidableEq, Repr

/-- The window offset of a register (10_state.md R28). -/
def HostReg.offset : HostReg → Nat
  | .cmd => 0x00
  | .status => 0x04
  | .cfg => 0x08
  | .a0 => 0x10
  | .a1 => 0x18
  | .a2 => 0x20
  | .r0 => 0x28
  | .r1 => 0x30

/-- A line of a host program (30_encoding.md R80). -/
inductive HostLine where
  /-- WR <reg>, <value> -/
  | wr (r : HostReg) (v : Dword)
  /-- CMD <mnemonic>, and CMD <mnemonic> <s> -/
  | cmd (i : Instr)
  /-- CMD PBFILL <s>, [<b0>, <b1>, ...] -/
  | fill (slot : SlotField) (bytes : List Byte)
  /-- CMD .word <w>, [<bytes>] -/
  | word (w : Word) (bytes : List Byte)
  /-- RD <reg> -/
  | rd (r : HostReg)
deriving DecidableEq, Repr

/-- The host action of a line (30_encoding.md R80, R81). `ok` is the platform's ALLOC_OK draw for the line (00_scope.md R7). -/
def HostLine.assemble (ok : Bool) : HostLine → HostAction
  | .wr r v => .write r.offset v [] ok
  | .cmd i => .write HostReg.cmd.offset (zext64 (encode i)) [] ok
  | .fill slot bytes => .write HostReg.cmd.offset (zext64 (encode (.pbfill slot))) bytes ok
  | .word w bytes => .write HostReg.cmd.offset (zext64 w) bytes ok
  | .rd r => .read r.offset

end Sys2Proof.Machine
end

