-- ==== Sys2Proof/Machine/Port.lean ====
section
/-! DEFINITION. The command port: serving one host action (30_encoding.md R71; 60_exceptions.md R199). -/

namespace Sys2Proof.Machine

/-- The state in which a transaction starts: its payload P and its ALLOC_OK draw are on the port. -/
def State.accept (s : State) (payload : List Byte) (allocOk : Bool) : State :=
  { s with payload := payload, allocOk := allocOk }

/-- The command a write of word w to CMD issues, BadCommand where the decoder refuses the word (30_encoding.md R71, R78). -/
def issue (w : Word) (s : State) : Host.Outcome State Fault Refusal :=
  match decode w with
  | none => .next (s.raise .badCommand)
  | some i => exec i s

/-- Serving one host action (10_state.md R23, R28; 70_reset_and_hazards.md R220). A write at offset 0 is a write of CMD, whose
32-bit value is the low half of the value written (log entry 11). -/
def serve (a : HostAction) (s : State) : Host.Outcome State Fault Refusal :=
  match a with
  | .write off v payload ok =>
    if off = HostReg.cmd.offset then issue (v.extractLsb' 0 32) (s.accept payload ok)
    else .next (writeWindow off v s)
  | .read off => .next (s.deliver (readWindow off s))
  | .reset => .next s.applyReset

/-- The action that writes a command word with no payload. -/
def commandAction (w : Word) (allocOk : Bool) : HostAction := .write HostReg.cmd.offset (zext64 w) [] allocOk

end Sys2Proof.Machine
end

