-- ==== Sys2Proof/Machine/Step.lean ====
section
/-! DEFINITION. One step of the machine: it serves the oldest pending host action; with none pending the block waits (log entry 2). -/

namespace Sys2Proof.Machine

/-- One step. The block acts only when the host acts (60_exceptions.md R199), one action at a time, in order (20_memory.md R60). -/
def step (s : State) : Host.Outcome State Fault Refusal :=
  match s.pending with
  | [] => .next s
  | a :: rest => serve a { s with pending := rest }

/-- The state in which the host's next action is the write of command word `w` to CMD, with no payload (log entry 3). -/
def State.withFetchWord (s : State) (nbits w : Nat) : State :=
  { s with pending := commandAction (BitVec.ofNat 32 (w % 2 ^ nbits)) s.allocOk :: s.pending }

end Sys2Proof.Machine
end

