-- ==== Sys2Proof/Safety.lean ====
section
/-! DEFINITION. What a safe state is: the invariant that reset establishes and every step keeps. -/

namespace Sys2Proof.Machine

/-- Whether a command's rule names R0 among its results (30_encoding.md R73). -/
def writesR0 : Instr → Bool
  | .fourcc | .mkid | .mkidfcc | .pack2 | .unpack2 | .t2ms | .ms2t | .idfor => true
  | .pbget _ | .pbdim _ | .pbsize _ | .pbstride _ => true
  | .pbcreate _ | .pbset _ | .pbalpha _ | .pbfill _ | .pbread _ | .pbfree _ => false

/-- Whether a command's rule names R1 among its results (30_encoding.md R73). -/
def writesR1 : Instr → Bool
  | .mkid | .mkidfcc | .unpack2 | .idfor => true
  | .pbdim _ | .pbsize _ => true
  | .fourcc | .pack2 | .t2ms | .ms2t => false
  | .pbget _ | .pbstride _ => false
  | .pbcreate _ | .pbset _ | .pbalpha _ | .pbfill _ | .pbread _ | .pbfree _ => false

/-- Whether a command may change the slot table or its memories (20_memory.md R58). -/
def changesSlot : Instr → Bool
  | .pbcreate _ | .pbset _ | .pbalpha _ | .pbfill _ | .pbfree _ => true
  | .fourcc | .mkid | .mkidfcc | .pack2 | .unpack2 | .t2ms | .ms2t | .idfor => false
  | .pbget _ | .pbread _ | .pbdim _ | .pbsize _ | .pbstride _ => false

/-- A slot as 10_state.md R32 to R34 and 20_memory.md R50 have it, on a block with configuration `c` that has drawn `draws` streams:
a LIVE slot has dimensions at least 0, a size within MAX_BYTES, its written bytes inside its memory, and a stream already drawn;
any other slot has dimensions 0 and no memory. Its written bytes are in canonical form. -/
structure Slot.Wf (c : Config) (draws : Nat) (sl : Slot) : Prop where
  canonical : Memory.Wf sl.mem
  dimensions : sl.isLive → 0 ≤ sl.width ∧ 0 ≤ sl.height
  fits : sl.isLive → sl.size ≤ c.maxBytes
  inside : sl.isLive → ∀ cell ∈ sl.mem, (cell.1 : Int) < sl.size
  drawn : sl.isLive → sl.fresh < draws
  gone : ¬ sl.isLive → sl.w = 0 ∧ sl.h = 0 ∧ sl.mem = []

/-- The invariant of the machine. -/
structure State.Inv (s : State) : Prop where
  /-- The configuration is within its ranges (00_scope.md section 3). -/
  config : s.cfg.Wf
  /-- The slot table has NUM_SLOTS entries (10_state.md R30). -/
  table : s.slots.length = s.cfg.numSlots
  /-- Every slot is well formed. -/
  slots : ∀ n : SlotField, (s.slot n).Wf s.cfg s.draws
  /-- No two live slots share an INIT_BYTE stream: their fresh bytes are independent draws (10_state.md R35; 20_memory.md R52). -/
  streams : ∀ m n : SlotField, m ≠ n → (s.slot m).isLive → (s.slot n).isLive → (s.slot m).fresh ≠ (s.slot n).fresh
  /-- An error code that still shows in STATUS.CODE has set STICKY (10_state.md R26). -/
  sticky : s.code ≠ .ok → s.sticky = true
  /-- Between commands there is no payload: nothing of a transaction survives it (10_state.md R23). -/
  port : s.payload = []

end Sys2Proof.Machine
end

