-- ==== Sys2Proof/Certificates/Slice0/Obligations.lean ====
section
/-! DEFINITION. The statements for the provers, and the few words of their own they are written in (`Claim.…`), spelled from the
spec and not from the machine's definitions. What the spec calls the payload and the response of a transaction (30_encoding.md R71)
stands in the model's own fields `payload` and `replies`, and what the host asks next in `pending` (log entries 2, 8): where a
statement of a rule names these fields, it names the model's carriers of what the rule speaks of. -/

namespace Sys2Proof.Claim

open Sys2Proof.Machine

/-- The state an error report leaves (60_exceptions.md R192): CODE and STICKY, the transaction over with its response. -/
def reported (s : State) (c : Code) : State :=
  { s with
    code := c
    sticky := true
    payload := []
    replies := .command (0x100#32 ||| c.number.setWidth 32) [] :: s.replies }

/-- The state a success report leaves (60_exceptions.md R193), with output `out`. -/
def completed (s : State) (out : List Byte) : State :=
  { s with
    code := .ok
    payload := []
    replies := .command (if s.sticky then 0x100#32 else 0#32) out :: s.replies }

/-- The state in which a transaction with payload `p` and draw `ok` starts, `rest` being what the host asks next. -/
def started (s : State) (rest : List HostAction) (p : List Byte) (ok : Bool) : State :=
  { s with pending := rest, payload := p, allocOk := ok }

/-- FromBytes_4 of four bytes, lowest address first, spelled out (00_scope.md R11). -/
def wordInOrder (e : Endian) (b0 b1 b2 b3 : Byte) : Word :=
  match e with
  | .little => b3 ++ b2 ++ b1 ++ b0
  | .big => b0 ++ b1 ++ b2 ++ b3

/-- Byte k of Bytes_4(v), spelled out (00_scope.md R11). -/
def imageByte (e : Endian) (v : Word) (k : Nat) : Byte :=
  match e with
  | .little => v.extractLsb' (8 * k) 8
  | .big => v.extractLsb' (8 * (3 - k)) 8

/-- Byte k of the padded code FOURCC is given in A1 and A2 (40_codec.md R101). -/
def codeByte (s : State) (k : Nat) : Byte := if k < s.a2.toNat then s.a1.extractLsb' (8 * k) 8 else 0x20#8

/-- The FourCC value of the operands (40_codec.md R101). -/
def codeWord (s : State) : Word :=
  wordInOrder s.cfg.endian (codeByte s 0) (codeByte s 1) (codeByte s 2) (codeByte s 3)

/-- The first operand as s32 (30_encoding.md R74). -/
def firstS32 (s : State) : Int := (s.a0.extractLsb' 0 32).toInt

/-- The second operand as s32 (30_encoding.md R74). -/
def secondS32 (s : State) : Int := (s.a1.extractLsb' 0 32).toInt

/-- The operands name a pixel of slot n: 0 <= x < W and 0 <= y < H (41_pixel.md R142). -/
def InBounds (s : State) (n : SlotField) : Prop :=
  0 ≤ firstS32 s ∧ firstS32 s < (s.slot n).w.toInt ∧ 0 ≤ secondS32 s ∧ secondS32 s < (s.slot n).h.toInt

/-- The byte address of the pixel the operands name: 4 * (x + y * W) (20_memory.md R51). -/
def pixelAddress (s : State) (n : SlotField) : Nat :=
  4 * (firstS32 s + secondS32 s * (s.slot n).w.toInt).toNat

/-- The pixel word at a byte address of a slot (20_memory.md R53). -/
def pixelWord (e : Endian) (sl : Slot) (a : Nat) : Word :=
  wordInOrder e (sl.byte a) (sl.byte (a + 1)) (sl.byte (a + 2)) (sl.byte (a + 3))

/-- SIZE(s), spelled out (10_state.md R33). -/
def byteSize (sl : Slot) : Int := sl.w.toInt * sl.h.toInt * 4

/-- A PBU command may start on slot n: the slot exists and there is no payload (30_encoding.md R78). -/
def Starts (s : State) (n : SlotField) : Prop := n.toNat < s.cfg.numSlots ∧ s.payload = []

/-- The state with one slot replaced. -/
def withSlot (s : State) (n : SlotField) (sl : Slot) : State := { s with slots := s.slots.set n.toNat sl }

/-- A slot with its written bytes replaced, its state and dimensions kept. -/
def withMem (sl : Slot) (m : Memory) : Slot := { sl with mem := m }

/-- The tests of 30_encoding.md R78 on a word and a payload, spelled out. -/
def Illegal (c : Config) (w : Word) (p : List Byte) : Prop :=
  w.extractLsb' 16 16 ≠ 0#16 ∨
  ¬ ((0x01 ≤ (w.extractLsb' 0 8).toNat ∧ (w.extractLsb' 0 8).toNat ≤ 0x08) ∨
     (0x10 ≤ (w.extractLsb' 0 8).toNat ∧ (w.extractLsb' 0 8).toNat ≤ 0x19)) ∨
  (0x01 ≤ (w.extractLsb' 0 8).toNat ∧ (w.extractLsb' 0 8).toNat ≤ 0x08 ∧ w.extractLsb' 8 8 ≠ 0#8) ∨
  (0x10 ≤ (w.extractLsb' 0 8).toNat ∧ (w.extractLsb' 0 8).toNat ≤ 0x19 ∧ c.numSlots ≤ (w.extractLsb' 8 8).toNat) ∨
  (w.extractLsb' 0 8 ≠ 0x14#8 ∧ p ≠ [])

/-- A binary64 pattern is a finite number: its exponent field is not all ones (IEEE 754; 00_scope.md R14). -/
def FiniteNumber (v : Dword) : Prop := v.extractLsb' 52 11 ≠ 0x7FF#11

/-- The number a finite binary64 pattern denotes (IEEE 754; 00_scope.md R14), spelled from its sign, exponent and fraction fields. -/
def numberOf (v : Dword) : ℚ :=
  (if v.getLsbD 63 then -1 else 1) *
    (if v.extractLsb' 52 11 = 0#11 then ((v.extractLsb' 0 52).toNat : ℚ) * (2 : ℚ) ^ (-1074 : Int)
     else (2 ^ 52 + (v.extractLsb' 0 52).toNat : ℚ) * (2 : ℚ) ^ (((v.extractLsb' 52 11).toNat : Int) - 1075))

/-- u is the finite binary64 number nearest to x; of two equally near, the one whose last bit is 0 (ties to even). -/
def NearestNumber (x : ℚ) (u : Dword) : Prop :=
  FiniteNumber u ∧ ∀ v, FiniteNumber v →
    |numberOf u - x| ≤ |numberOf v - x| ∧
    (numberOf v ≠ numberOf u → |numberOf u - x| = |numberOf v - x| → u.getLsbD 0 = false)

/-- The integer part, rounded toward zero (00_scope.md R14). -/
def truncate (p : ℚ) : Int := if 0 ≤ p then ⌊p⌋ else ⌈p⌉

end Sys2Proof.Claim

open Sys2Proof Sys2Proof.Machine Sys2Proof.Claim

/-! ### Reset and the invariant -/

/-- 10_state.md R39: the value every piece of state holds after reset, whatever the configuration. -/
def Obligations.ResetLeavesTheSpecsValues : Prop :=
  ∀ c : Config, ∀ s : State, s = State.resetWith c →
    s.a0 = 0 ∧ s.a1 = 0 ∧ s.a2 = 0 ∧ s.r0 = 0 ∧ s.r1 = 0 ∧ s.code = .ok ∧ s.sticky = false ∧
    s.slots.length = c.numSlots ∧
    (∀ n : Nat, n < c.numSlots → ∃ sl, s.slots[n]? = some sl ∧ sl.state = .empty ∧ sl.w = 0 ∧ sl.h = 0 ∧ sl.mem = []) ∧
    s.cfg = c

/-- 70_reset_and_hazards.md R220: the reset input puts every piece of state into its reset value and keeps the configuration,
from whatever state it is asserted in. -/
def Obligations.ResetInputRestoresEveryPieceOfState : Prop :=
  ∀ (s : State) (rest : List HostAction), s.pending = .reset :: rest →
    ∃ t, step s = .next t ∧
      t.a0 = 0 ∧ t.a1 = 0 ∧ t.a2 = 0 ∧ t.r0 = 0 ∧ t.r1 = 0 ∧ t.code = .ok ∧ t.sticky = false ∧
      t.slots.length = s.cfg.numSlots ∧
      (∀ n : Nat, n < s.cfg.numSlots → ∃ sl, t.slots[n]? = some sl ∧ sl.state = .empty ∧ sl.w = 0 ∧ sl.h = 0 ∧ sl.mem = []) ∧
      t.cfg = s.cfg

/-- The invariant holds after reset, for every configuration in its ranges, and of the one constant State.reset
(whose configuration is the model's choice, log entry 1). -/
def Obligations.InvariantHoldsAfterReset : Prop :=
  (∀ c : Config, c.Wf → (State.resetWith c).Inv) ∧ State.reset.Inv

/-- Headline: from every state that meets the invariant, whatever the host does next, a step leads to a state that meets it.
Memories keep their canonical form and stay inside their size, dimensions and sizes stay within R32 to R34, no two live slots
share fresh bytes, and an error that shows has set STICKY. -/
def Obligations.EveryStepKeepsTheInvariant : Prop :=
  ∀ s t : State, s.Inv → step s = .next t → t.Inv

/-! ### Rules of the whole machine -/

/-- 60_exceptions.md R190: a command either succeeds, with CODE = OK, or raises exactly one error code; nothing else can happen.
Every step has a next state (70_reset_and_hazards.md R229). -/
def Obligations.EveryCommandSucceedsOrRaisesOneError : Prop :=
  (∀ (i : Instr) (s : State), ∃ t, exec i s = .next t ∧
      ((t.code = .ok ∧ ∃ o, t.replies = .command (if s.sticky then 0x100#32 else 0#32) o :: s.replies) ∨
       (t.code ≠ .ok ∧ t.replies = .command (0x100#32 ||| t.code.number.setWidth 32) [] :: s.replies))) ∧
  (∀ s : State, ∃ t, step s = .next t)

/-- 60_exceptions.md R192: what an error does, and that nothing else changes, for every command and every way it can fail. -/
def Obligations.AnErrorChangesOnlyTheStatus : Prop :=
  ∀ (i : Instr) (s t : State), exec i s = .next t → t.code ≠ .ok → t = reported s t.code

/-- 60_exceptions.md R193: a command that does not raise sets CODE to OK and keeps STICKY. -/
def Obligations.ASuccessKeepsSticky : Prop :=
  ∀ (i : Instr) (s t : State), exec i s = .next t → t.code = .ok →
    t.sticky = s.sticky ∧ t.statusWord = if s.sticky then 0x100#32 else 0#32

/-- 10_state.md R26: STICKY is set by every command that raises an error, and cleared only by reset. -/
def Obligations.StickyIsSetByErrorsAndClearedOnlyByReset : Prop :=
  (∀ (i : Instr) (s t : State), exec i s = .next t → t.code ≠ .ok → t.sticky = true) ∧
  (∀ s t : State, step s = .next t → s.sticky = true → (∀ rest, s.pending ≠ .reset :: rest) → t.sticky = true) ∧
  (∀ (s : State) (rest : List HostAction), s.pending = .reset :: rest → ∃ t, step s = .next t ∧ t.sticky = false)

/-- 10_state.md R22: an operand register keeps the value the host last wrote to it, through every step, until the host writes it
or reset. -/
def Obligations.OperandRegistersKeepTheHostsValue : Prop :=
  ∀ s t : State, step s = .next t → (∀ rest, s.pending ≠ .reset :: rest) →
    ((∀ v p ok rest, s.pending ≠ .write 0x10 v p ok :: rest) → t.a0 = s.a0) ∧
    ((∀ v p ok rest, s.pending ≠ .write 0x18 v p ok :: rest) → t.a1 = s.a1) ∧
    ((∀ v p ok rest, s.pending ≠ .write 0x20 v p ok :: rest) → t.a2 = s.a2)

/-- 10_state.md R21: a command writes exactly the result registers its rule names (the table of 30_encoding.md R73), and only when it
succeeds. A register it does not name keeps its value; one it names gets a value that does not depend on what it held.
No command writes an operand register. -/
def Obligations.ResultRegistersAreWrittenOnlyAsTheRuleNames : Prop :=
  ∀ (i : Instr) (s t : State), exec i s = .next t →
    (t.r0 ≠ s.r0 → writesR0 i = true ∧ t.code = .ok) ∧ (t.r1 ≠ s.r1 → writesR1 i = true ∧ t.code = .ok) ∧
    t.a0 = s.a0 ∧ t.a1 = s.a1 ∧ t.a2 = s.a2 ∧
    ∀ x y : Dword, ∃ t', exec i { s with r0 := x, r1 := y } = .next t' ∧ t'.code = t.code ∧
      (writesR0 i = true → t.code = .ok → t'.r0 = t.r0) ∧ (writesR1 i = true → t.code = .ok → t'.r1 = t.r1)

/-- 20_memory.md R58, the frame of memory: PBGET, PBREAD, the accessors and every BCU command leave the whole slot table and every
byte of every memory alone; a byte of a live slot changes only by PBSET, PBALPHA, PBFILL or PBFREE of that slot. -/
def Obligations.MemoryChangesOnlyByTheStoringCommands : Prop :=
  ∀ (i : Instr) (s t : State), exec i s = .next t →
    (changesSlot i = false → t.slots = s.slots) ∧
    (∀ (n : SlotField) (a : Nat), (s.slot n).isLive → (t.slot n).byte a ≠ (s.slot n).byte a →
      i = .pbset n ∨ i = .pbalpha n ∨ i = .pbfill n ∨ i = .pbfree n)

/-- 10_state.md R31: the only transitions of STATE[s] a command makes. -/
def Obligations.SlotStatesChangeOnlyByCreateAndFree : Prop :=
  ∀ (i : Instr) (s t : State) (n : SlotField), exec i s = .next t → (t.slot n).state ≠ (s.slot n).state →
    (i = .pbcreate n ∧ t.code = .ok ∧ (s.slot n).state ≠ .live ∧ (t.slot n).state = .live) ∨
    (i = .pbfree n ∧ (s.slot n).state = .live ∧ (t.slot n).state = .disposed)

/-- 10_state.md R31: EMPTY and DISPOSED behave alike in every command. -/
def Obligations.EmptyAndDisposedBehaveAlike : Prop :=
  ∀ (i : Instr) (s : State) (n : SlotField), n.toNat < s.slots.length → (s.slot n).state = .empty →
    ∃ t t', exec i s = .next t ∧ exec i (withSlot s n { s.slot n with state := .disposed }) = .next t' ∧
      t'.code = t.code ∧ t'.sticky = t.sticky ∧ t'.r0 = t.r0 ∧ t'.r1 = t.r1 ∧ t'.replies = t.replies ∧
      (∀ m, m ≠ n → t'.slot m = t.slot m) ∧
      { t'.slot n with state := .empty } = { t.slot n with state := .empty } ∧ ((t'.slot n).isLive ↔ (t.slot n).isLive)

/-- 20_memory.md R65: what has been delivered to the host never changes: a step adds at most one reply. -/
def Obligations.DeliveredRepliesNeverChange : Prop :=
  ∀ s t : State, step s = .next t → t.replies = s.replies ∨ ∃ r, t.replies = r :: s.replies

/-! ### The host's registers -/

/-- 10_state.md R24 and R25: the fields of STATUS and the numbers of its codes; a host write to it is ignored; every command writes
CODE, whatever it held, and nothing else (but reset) does. -/
def Obligations.StatusRegisterHasItsFields : Prop :=
  (∀ s : State, s.statusWord.extractLsb' 0 4 = s.code.number ∧ s.statusWord.extractLsb' 4 4 = 0#4 ∧
    s.statusWord.getLsbD 8 = s.sticky ∧ s.statusWord.extractLsb' 9 23 = 0#23) ∧
  [Code.ok, .invalidArgument, .allocationFailure, .outOfBounds, .disposed, .notFound, .sizeMismatch, .slotInUse,
    .badCommand].map Code.number = [0, 1, 2, 3, 4, 5, 6, 7, 8] ∧
  (∀ (s : State) (v : Dword) (p : List Byte) (ok : Bool) (rest : List HostAction),
    s.pending = .write 0x04 v p ok :: rest → step s = .next { s with pending := rest }) ∧
  (∀ s t : State, step s = .next t → (∀ v p ok rest, s.pending ≠ .write 0x00 v p ok :: rest) →
    (∀ rest, s.pending ≠ .reset :: rest) → t.code = s.code ∧ t.sticky = s.sticky) ∧
  (∀ (i : Instr) (s : State) (c : Code), ∃ t t', exec i s = .next t ∧ exec i { s with code := c } = .next t' ∧ t'.code = t.code)

/-- 10_state.md R27: the fields of CFG, for every configuration in its ranges; a host write to it is ignored; no step changes the
configuration it shows. -/
def Obligations.ConfigurationRegisterNeverChanges : Prop :=
  (∀ c : Config, c.Wf →
    (cfgWord c).getLsbD 0 = decide (c.endian = .big) ∧ (cfgWord c).extractLsb' 1 7 = 0#7 ∧
    ((cfgWord c).extractLsb' 8 8).toNat = c.numSlots - 1 ∧ (cfgWord c).extractLsb' 16 16 = 0#16) ∧
  (∀ (s : State) (v : Dword) (p : List Byte) (ok : Bool) (rest : List HostAction),
    s.pending = .write 0x08 v p ok :: rest → step s = .next { s with pending := rest }) ∧
  (∀ s t : State, step s = .next t → t.cfg = s.cfg)

/-- The register window of 10_state.md section 2. A read of each offset delivers its register, or 0 where none can be read, and changes
nothing else; a write to CMD issues its command; A0, A1 and A2 take a host write; a write to any other offset is ignored, R0 and R1
among them. That an access carries 64 bits, that CMD takes the low half of the value written and that STATUS and CFG are read
zero-extended is the model's choice (log entry 11), as is that a write elsewhere ignores a payload (log entry 12). -/
def Obligations.TheRegisterWindowReadsAndWrites : Prop :=
  (∀ (s : State) (off : Nat) (rest : List HostAction), s.pending = .read off :: rest →
    ∃ v, step s = .next { s with pending := rest, replies := .value v :: s.replies } ∧
      (off = 0x04 → v = s.statusWord.setWidth 64) ∧ (off = 0x08 → v = (cfgWord s.cfg).setWidth 64) ∧
      (off = 0x10 → v = s.a0) ∧ (off = 0x18 → v = s.a1) ∧ (off = 0x20 → v = s.a2) ∧
      (off = 0x28 → v = s.r0) ∧ (off = 0x30 → v = s.r1) ∧
      (off ∉ [0x04, 0x08, 0x10, 0x18, 0x20, 0x28, 0x30] → v = 0)) ∧
  (∀ (s : State) (off : Nat) (v : Dword) (p : List Byte) (ok : Bool) (rest : List HostAction),
    s.pending = .write off v p ok :: rest →
      (off = 0x00 → step s = issue (v.extractLsb' 0 32) (started s rest p ok)) ∧
      (off = 0x10 → step s = .next { s with pending := rest, a0 := v }) ∧
      (off = 0x18 → step s = .next { s with pending := rest, a1 := v }) ∧
      (off = 0x20 → step s = .next { s with pending := rest, a2 := v }) ∧
      (off ∉ [0x00, 0x10, 0x18, 0x20] → step s = .next { s with pending := rest }))

/-! ### Encoding and decoding -/

/-- 30_encoding.md R76: the opcode map, as words decoded: every BCU word, every PBU word with every slot, and
no word of a reserved opcode. -/
def Obligations.TheOpcodeMapIsDecoded : Prop :=
  decode 0x00000001#32 = some .fourcc ∧ decode 0x00000002#32 = some .mkid ∧ decode 0x00000003#32 = some .mkidfcc ∧
  decode 0x00000004#32 = some .pack2 ∧ decode 0x00000005#32 = some .unpack2 ∧ decode 0x00000006#32 = some .t2ms ∧
  decode 0x00000007#32 = some .ms2t ∧ decode 0x00000008#32 = some .idfor ∧
  (∀ n : SlotField,
    decode (n.setWidth 32 <<< 8 ||| 0x10#32) = some (.pbcreate n) ∧ decode (n.setWidth 32 <<< 8 ||| 0x11#32) = some (.pbget n) ∧
    decode (n.setWidth 32 <<< 8 ||| 0x12#32) = some (.pbset n) ∧ decode (n.setWidth 32 <<< 8 ||| 0x13#32) = some (.pbalpha n) ∧
    decode (n.setWidth 32 <<< 8 ||| 0x14#32) = some (.pbfill n) ∧ decode (n.setWidth 32 <<< 8 ||| 0x15#32) = some (.pbread n) ∧
    decode (n.setWidth 32 <<< 8 ||| 0x16#32) = some (.pbfree n) ∧ decode (n.setWidth 32 <<< 8 ||| 0x17#32) = some (.pbdim n) ∧
    decode (n.setWidth 32 <<< 8 ||| 0x18#32) = some (.pbsize n) ∧ decode (n.setWidth 32 <<< 8 ||| 0x19#32) = some (.pbstride n)) ∧
  ∀ w : Word, w.extractLsb' 0 8 = 0x00#8 ∨ (0x09 ≤ (w.extractLsb' 0 8).toNat ∧ (w.extractLsb' 0 8).toNat ≤ 0x0F) ∨
    0x1A ≤ (w.extractLsb' 0 8).toNat → decode w = none

/-- A few words written out from the spec decode to what they stand for (the table of 30_encoding.md section 6). -/
def Obligations.WrittenOutWordsDecode : Prop :=
  decode 0b00000000000000000000000000000110#32 = some .t2ms ∧ decode 0b00000000000000000000000000010001#32 = some (.pbget 0) ∧
  decode 0b00000000000000000000000100010100#32 = some (.pbfill 1) ∧ decode 0x00000109#32 = none ∧ decode 0x80000017#32 = none ∧
  decode 0x00000101#32 = none

/-- Headline: decoding and encoding agree in both directions, for every word and every command with every slot. A word has at most one
reading, and no bit of it is dropped. -/
def Obligations.DecodingInvertsEncoding : Prop :=
  ∀ (w : Word) (i : Instr), decode w = some i ↔ w = encode i

/-- The tests of decoding (30_encoding.md section 4) on every word with every payload. A transaction that fails one raises BadCommand and
changes nothing else; one that passes all is the command whose word it is. That the word is the low half of the 64-bit value written
to CMD is the model's choice (log entry 11). -/
def Obligations.IllegalCommandsRaiseBadCommand : Prop :=
  ∀ (s : State) (v : Dword) (p : List Byte) (ok : Bool) (rest : List HostAction),
    s.pending = .write 0x00 v p ok :: rest →
      (Illegal s.cfg (v.extractLsb' 0 32) p → step s = .next (reported (started s rest p ok) .badCommand)) ∧
      (¬ Illegal s.cfg (v.extractLsb' 0 32) p →
        ∃ i, v.extractLsb' 0 32 = encode i ∧ i.wellFormed s.cfg.numSlots = true ∧ step s = exec i (started s rest p ok))

/-- A step runs the decoded command: where the word at CMD decodes, the step is that command, with its payload and its draw on the
port and the action taken off the queue. The queue is the model's own (log entry 2), and that the word is the low half of the 64-bit
value written to CMD is the model's choice (log entry 11). -/
def Obligations.AStepRunsTheDecodedCommand : Prop :=
  ∀ (s : State) (v : Dword) (p : List Byte) (ok : Bool) (rest : List HostAction) (i : Instr),
    s.pending = .write 0x00 v p ok :: rest → decode (v.extractLsb' 0 32) = some i → step s = exec i (started s rest p ok)

/-- What each line of a host program (30_encoding.md section 5) does to the block. That a line's access carries 64 bits and that RD STATUS
and RD CFG deliver the register zero-extended is the model's choice (log entry 11). -/
def Obligations.ProgramLinesDoWhatTheySay : Prop :=
  ∀ (s : State) (rest : List HostAction) (ok : Bool),
    (∀ i, s.pending = (HostLine.cmd i).assemble ok :: rest → step s = exec i (started s rest [] ok)) ∧
    (∀ n p, s.pending = (HostLine.fill n p).assemble ok :: rest → step s = exec (.pbfill n) (started s rest p ok)) ∧
    (∀ w p, s.pending = (HostLine.word w p).assemble ok :: rest → step s = issue w (started s rest p ok)) ∧
    (∀ v, s.pending = (HostLine.wr .a0 v).assemble ok :: rest → step s = .next { s with pending := rest, a0 := v }) ∧
    (∀ v, s.pending = (HostLine.wr .a1 v).assemble ok :: rest → step s = .next { s with pending := rest, a1 := v }) ∧
    (∀ v, s.pending = (HostLine.wr .a2 v).assemble ok :: rest → step s = .next { s with pending := rest, a2 := v }) ∧
    (∀ v r, r ∈ [HostReg.status, .cfg, .r0, .r1] → s.pending = (HostLine.wr r v).assemble ok :: rest →
      step s = .next { s with pending := rest }) ∧
    (s.pending = (HostLine.rd .r0).assemble ok :: rest →
      step s = .next { s with pending := rest, replies := .value s.r0 :: s.replies }) ∧
    (s.pending = (HostLine.rd .r1).assemble ok :: rest →
      step s = .next { s with pending := rest, replies := .value s.r1 :: s.replies }) ∧
    (s.pending = (HostLine.rd .status).assemble ok :: rest →
      step s = .next { s with pending := rest, replies := .value (s.statusWord.setWidth 64) :: s.replies }) ∧
    (s.pending = (HostLine.rd .cfg).assemble ok :: rest →
      step s = .next { s with pending := rest, replies := .value ((cfgWord s.cfg).setWidth 64) :: s.replies }) ∧
    (s.pending = (HostLine.rd .a0).assemble ok :: rest →
      step s = .next { s with pending := rest, replies := .value s.a0 :: s.replies }) ∧
    (s.pending = (HostLine.rd .a1).assemble ok :: rest →
      step s = .next { s with pending := rest, replies := .value s.a1 :: s.replies }) ∧
    (s.pending = (HostLine.rd .a2).assemble ok :: rest →
      step s = .next { s with pending := rest, replies := .value s.a2 :: s.replies })

/-! ### The binary codec unit -/

/-- 40_codec.md R101 and R102: FOURCC, its value under each ENDIAN, its error, and its whole next state. -/
def Obligations.FourccPacksTheCodeInNativeOrder : Prop :=
  encode .fourcc = 0x00000001#32 ∧
  ∀ s : State, s.payload = [] →
    (1 ≤ s.a0.toNat ∧ s.a0.toNat ≤ 4 → exec .fourcc s = .next (completed { s with r0 := 0#32 ++ codeWord s } [])) ∧
    (s.a0.toNat = 0 ∨ 4 < s.a0.toNat → exec .fourcc s = .next (reported s .invalidArgument))

/-- 40_codec.md R106: MKID. -/
def Obligations.MkidBuildsTheIdentifier : Prop :=
  encode .mkid = 0x00000002#32 ∧
  ∀ s : State, s.payload = [] →
    exec .mkid s = .next (completed
      { s with r0 := s.a0.extractLsb' 0 32 ++ 0x00000010#32, r1 := 0x800000AA00389B71#64 } [])

/-- 40_codec.md R107: MKIDFCC. -/
def Obligations.MkidfccBuildsTheIdentifierOfTheCode : Prop :=
  encode .mkidfcc = 0x00000003#32 ∧
  ∀ s : State, s.payload = [] →
    (1 ≤ s.a0.toNat ∧ s.a0.toNat ≤ 4 →
      exec .mkidfcc s = .next (completed { s with r0 := codeWord s ++ 0x00000010#32, r1 := 0x800000AA00389B71#64 } [])) ∧
    (s.a0.toNat = 0 ∨ 4 < s.a0.toNat → exec .mkidfcc s = .next (reported s .invalidArgument))

/-- 40_codec.md R103 to R105: the suffix, the fields of an identifier, and its serialization byte by byte. -/
def Obligations.IdentifiersHaveTheirFieldsAndBytes : Prop :=
  suffix = 0x00000010800000AA00389B71#96 ∧
  (∀ v : Word, (buildId v).extractLsb' 96 32 = v ∧ (buildId v).extractLsb' 80 16 = 0x0000#16 ∧
    (buildId v).extractLsb' 64 16 = 0x0010#16 ∧ (buildId v).extractLsb' 0 64 = 0x800000AA00389B71#64 ∧
    idBytes (buildId v) = [v.extractLsb' 24 8, v.extractLsb' 16 8, v.extractLsb' 8 8, v.extractLsb' 0 8,
      0x00, 0x00, 0x00, 0x10, 0x80, 0x00, 0x00, 0xAA, 0x00, 0x38, 0x9B, 0x71]) ∧
  (∀ id : Ident, (idBytes id).length = 16 ∧ ∀ k : Nat, k < 16 → (idBytes id)[k]? = some (id.extractLsb' (120 - 8 * k) 8))

/-- 40_codec.md R109: PACK2. -/
def Obligations.Pack2JoinsTheTwoValues : Prop :=
  encode .pack2 = 0x00000004#32 ∧
  ∀ s : State, s.payload = [] →
    exec .pack2 s = .next (completed { s with r0 := s.a0.extractLsb' 0 32 ++ s.a1.extractLsb' 0 32 } [])

/-- 40_codec.md R112: UNPACK2. -/
def Obligations.Unpack2SignExtendsEachHalf : Prop :=
  encode .unpack2 = 0x00000005#32 ∧
  ∀ s : State, s.payload = [] →
    ∃ x y : Dword, x.toInt = (s.a0.extractLsb' 32 32).toInt ∧ y.toInt = (s.a0.extractLsb' 0 32).toInt ∧
      exec .unpack2 s = .next (completed { s with r0 := x, r1 := y } [])

/-- The round trip of pairs, for every pair and either ENDIAN: PACK2, then UNPACK2 with A0 = its result. -/
def Obligations.PackingThenUnpackingReturnsThePair : Prop :=
  ∀ s : State, s.payload = [] →
    ∃ t u, exec .pack2 s = .next t ∧ exec .unpack2 { t with a0 := t.r0 } = .next u ∧ t.code = .ok ∧ u.code = .ok ∧
      u.r0.extractLsb' 0 32 = s.a0.extractLsb' 0 32 ∧ u.r1.extractLsb' 0 32 = s.a1.extractLsb' 0 32

/-- The byte image of a PACK2 result is the image of each encoding path: the second value first on a little-endian host, the
first value first on a big-endian one. -/
def Obligations.ThePackedImageIsTheNamedPath : Prop :=
  ∀ s : State, s.payload = [] → ∃ t, exec .pack2 s = .next t ∧
    bytesOf .little 8 t.r0 = encodeLittleEndianPair (s.a0.extractLsb' 0 32) (s.a1.extractLsb' 0 32) ∧
    bytesOf .big 8 t.r0 = encodeBigEndianPair (s.a0.extractLsb' 0 32) (s.a1.extractLsb' 0 32) ∧
    bytesOf .little 4 (s.a1.extractLsb' 0 32) = (bytesOf .little 8 t.r0).take 4 ∧
    bytesOf .big 4 (s.a0.extractLsb' 0 32) = (bytesOf .big 8 t.r0).take 4

/-- The byte image of a FOURCC result is the padded code, byte 0 first, for either ENDIAN. -/
def Obligations.TheFourccImageIsThePaddedCode : Prop :=
  ∀ s : State, s.payload = [] → 1 ≤ s.a0.toNat → s.a0.toNat ≤ 4 →
    ∃ t, exec .fourcc s = .next t ∧ t.code = .ok ∧ t.r0.extractLsb' 32 32 = 0#32 ∧
      bytesOf s.cfg.endian 4 (t.r0.extractLsb' 0 32 : Word) = [codeByte s 0, codeByte s 1, codeByte s 2, codeByte s 3]

/-- 40_codec.md R113: T2MS. The quotient always fits. -/
def Obligations.T2msTruncatesTowardZero : Prop :=
  encode .t2ms = 0x00000006#32 ∧
  ∀ s : State, s.payload = [] →
    ∃ q : Dword, q.toInt = s.a0.toInt.tdiv 10000 ∧ exec .t2ms s = .next (completed { s with r0 := q } [])

/-- 40_codec.md R114, its first test: NaN and the infinities raise InvalidArgument. -/
def Obligations.Ms2tRefusesNanAndInfinity : Prop :=
  encode .ms2t = 0x00000007#32 ∧
  ∀ s : State, s.payload = [] → s.a0.extractLsb' 52 11 = 0x7FF#11 → exec .ms2t s = .next (reported s .invalidArgument)

/-- 40_codec.md R114, its arithmetic: for every finite binary64 operand, the product with 10000 rounded to the nearest binary64 number,
ties to even (of all finite numbers, spelled from IEEE 754 and not from the machine's arithmetic, log entry 15), decides: in the signed
64-bit range its integer part is the result, outside it InvalidArgument is raised. -/
def Obligations.Ms2tRoundsToNearestThenTruncates : Prop :=
  ∀ s : State, s.payload = [] → FiniteNumber s.a0 →
    ∃ u : Dword, NearestNumber (numberOf s.a0 * 10000) u ∧
      (-2 ^ 63 ≤ numberOf u ∧ numberOf u < 2 ^ 63 →
        ∃ q : Dword, q.toInt = truncate (numberOf u) ∧ exec .ms2t s = .next (completed { s with r0 := q } [])) ∧
      (numberOf u < -2 ^ 63 ∨ 2 ^ 63 ≤ numberOf u → exec .ms2t s = .next (reported s .invalidArgument))

/-- Whole milliseconds: for an integer k with |k| < 2^53 / 10000, MS2T of the binary64 number k gives k * 10000 ticks, and T2MS of
that gives k back. -/
def Obligations.WholeMillisecondsRoundTrip : Prop :=
  ∀ (s : State) (k : Int), s.payload = [] → FiniteNumber s.a0 → numberOf s.a0 = k → |k| * 10000 < 2 ^ 53 →
    ∃ t u, exec .ms2t s = .next t ∧ t = completed { s with r0 := BitVec.ofInt 64 (k * 10000) } [] ∧
      exec .t2ms { t with a0 := t.r0 } = .next u ∧ u.code = .ok ∧ u.r0.toInt = k

/-- 40_codec.md R116: IDFOR. -/
def Obligations.IdforLooksTheKeyUp : Prop :=
  encode .idfor = 0x00000008#32 ∧
  ∀ s : State, s.payload = [] → (s.cfg.registry.map Prod.fst).Nodup →
    (∀ id, (s.a0.extractLsb' 0 32, id) ∈ s.cfg.registry →
      exec .idfor s = .next (completed { s with r0 := id.extractLsb' 64 64, r1 := id.extractLsb' 0 64 } [])) ∧
    ((∀ id, (s.a0.extractLsb' 0 32, id) ∉ s.cfg.registry) → exec .idfor s = .next (reported s .notFound))

/-- 40_codec.md R100: a BCU command reads only its operands and the configuration, writes only its result registers and STATUS,
and never touches a slot. Two states that agree on what it may read get the same outcome. -/
def Obligations.BcuResultsDependOnOperandsAndConfigurationAlone : Prop :=
  ∀ (i : Instr) (s s' : State), i.slot? = none → s'.a0 = s.a0 → s'.a1 = s.a1 → s'.a2 = s.a2 →
    s'.cfg.endian = s.cfg.endian → s'.cfg.registry = s.cfg.registry → s'.payload = s.payload →
    ∃ t t', exec i s = .next t ∧ exec i s' = .next t' ∧ t'.code = t.code ∧ t.slots = s.slots ∧ t'.slots = s'.slots ∧
      (if writesR0 i = true ∧ t.code = .ok then t'.r0 = t.r0 else t.r0 = s.r0 ∧ t'.r0 = s'.r0) ∧
      (if writesR1 i = true ∧ t.code = .ok then t'.r1 = t.r1 else t.r1 = s.r1 ∧ t'.r1 = s'.r1)

/-! ### The pixel buffer unit -/

/-- 41_pixel.md R141: PBCREATE, its errors in their order and its success, for every draw: success carries ALLOC_OK = true as a
premise, and each byte of the new memory is its own INIT_BYTE draw, of a stream no allocation before had (log entry 5). -/
def Obligations.PbcreateAllocatesTheSlot : Prop :=
  (∀ n : SlotField, encode (.pbcreate n) = n.setWidth 32 <<< 8 ||| 0x10#32) ∧
  ∀ (s : State) (n : SlotField), Starts s n →
    ((s.slot n).state = .live → exec (.pbcreate n) s = .next (reported s .slotInUse)) ∧
    ((s.slot n).state ≠ .live → firstS32 s < 0 ∨ secondS32 s < 0 →
      exec (.pbcreate n) s = .next (reported s .invalidArgument)) ∧
    ((s.slot n).state ≠ .live → 0 ≤ firstS32 s → 0 ≤ secondS32 s →
      (2147483647 < firstS32 s * secondS32 s * 4 ∨ (s.cfg.maxBytes : Int) < firstS32 s * secondS32 s * 4 ∨ s.allocOk = false) →
      exec (.pbcreate n) s = .next (reported s .allocationFailure)) ∧
    ((s.slot n).state ≠ .live → 0 ≤ firstS32 s → 0 ≤ secondS32 s → firstS32 s * secondS32 s * 4 ≤ 2147483647 →
      firstS32 s * secondS32 s * 4 ≤ (s.cfg.maxBytes : Int) → s.allocOk = true →
      ∃ sl : Slot, sl.state = .live ∧ sl.w = s.a0.extractLsb' 0 32 ∧ sl.h = s.a1.extractLsb' 0 32 ∧
        (∀ a, sl.byte a = Config.initByte s.draws a) ∧
        exec (.pbcreate n) s = .next (completed { withSlot s n sl with draws := s.draws + 1 } []))

/-- 41_pixel.md R142: PBGET. -/
def Obligations.PbgetReadsThePixelWord : Prop :=
  (∀ n : SlotField, encode (.pbget n) = n.setWidth 32 <<< 8 ||| 0x11#32) ∧
  ∀ (s : State) (n : SlotField), Starts s n →
    ((s.slot n).state ≠ .live → exec (.pbget n) s = .next (reported s .disposed)) ∧
    ((s.slot n).state = .live → ¬ InBounds s n → exec (.pbget n) s = .next (reported s .outOfBounds)) ∧
    ((s.slot n).state = .live → InBounds s n →
      exec (.pbget n) s = .next (completed
        { s with r0 := 0#32 ++ pixelWord s.cfg.endian (s.slot n) (pixelAddress s n) } []))

/-- 41_pixel.md R143: PBSET, with the frame of memory: the four bytes at the pixel's address take the value's bytes in ENDIAN order,
every other byte reads as before, and nothing else changes. -/
def Obligations.PbsetWritesThePixelWord : Prop :=
  (∀ n : SlotField, encode (.pbset n) = n.setWidth 32 <<< 8 ||| 0x12#32) ∧
  ∀ (s : State) (n : SlotField), Starts s n →
    ((s.slot n).state ≠ .live → exec (.pbset n) s = .next (reported s .disposed)) ∧
    ((s.slot n).state = .live → ¬ InBounds s n → exec (.pbset n) s = .next (reported s .outOfBounds)) ∧
    ((s.slot n).state = .live → InBounds s n →
      ∃ m : Memory, exec (.pbset n) s = .next (completed (withSlot s n (withMem (s.slot n) m)) []) ∧
        ∀ a, (withMem (s.slot n) m).byte a =
          if pixelAddress s n ≤ a ∧ a < pixelAddress s n + 4
          then imageByte s.cfg.endian (s.a2.extractLsb' 0 32) (a - pixelAddress s n) else (s.slot n).byte a)

/-- 41_pixel.md R144: PBALPHA, word by word, with the frame of memory. -/
def Obligations.PbalphaForcesEveryAlpha : Prop :=
  (∀ n : SlotField, encode (.pbalpha n) = n.setWidth 32 <<< 8 ||| 0x13#32) ∧
  ∀ (s : State) (n : SlotField), Starts s n →
    ((s.slot n).state ≠ .live → exec (.pbalpha n) s = .next (reported s .disposed)) ∧
    ((s.slot n).state = .live →
      ∃ m : Memory, exec (.pbalpha n) s = .next (completed (withSlot s n (withMem (s.slot n) m)) []) ∧
        (∀ i : Nat, (i : Int) < (s.slot n).w.toInt * (s.slot n).h.toInt →
          pixelWord s.cfg.endian (withMem (s.slot n) m) (4 * i) =
            pixelWord s.cfg.endian (s.slot n) (4 * i) ||| 0xFF000000#32) ∧
        (∀ a : Nat, byteSize (s.slot n) ≤ (a : Int) → (withMem (s.slot n) m).byte a = (s.slot n).byte a))

/-- PBALPHA in bytes: exactly the byte of lane 3 of each pixel, at 4i + 3 (LITTLE) or 4i (BIG), becomes 0xFF; and a second PBALPHA
leaves every byte as the first did. -/
def Obligations.PbalphaChangesOneByteAPixelAndIsIdempotent : Prop :=
  ∀ (s : State) (n : SlotField), s.Inv → n.toNat < s.cfg.numSlots → (s.slot n).state = .live →
    ∃ t u, exec (.pbalpha n) s = .next t ∧ exec (.pbalpha n) t = .next u ∧ t.code = .ok ∧ u.code = .ok ∧
      (∀ a : Nat, (t.slot n).byte a =
        if (a : Int) < byteSize (s.slot n) ∧ a % 4 = (match s.cfg.endian with | .little => 3 | .big => 0)
        then 0xFF#8 else (s.slot n).byte a) ∧
      (∀ a : Nat, (u.slot n).byte a = (t.slot n).byte a)

/-- 41_pixel.md R145: PBFILL, with the frame of memory. -/
def Obligations.PbfillCopiesThePayload : Prop :=
  (∀ n : SlotField, encode (.pbfill n) = n.setWidth 32 <<< 8 ||| 0x14#32) ∧
  ∀ (s : State) (n : SlotField), n.toNat < s.cfg.numSlots →
    ((s.slot n).state ≠ .live → exec (.pbfill n) s = .next (reported s .disposed)) ∧
    ((s.slot n).state = .live → byteSize (s.slot n) < (s.payload.length : Int) →
      exec (.pbfill n) s = .next (reported s .sizeMismatch)) ∧
    ((s.slot n).state = .live → (s.payload.length : Int) ≤ byteSize (s.slot n) →
      ∃ m : Memory, exec (.pbfill n) s = .next (completed (withSlot s n (withMem (s.slot n) m)) []) ∧
        ∀ a, (withMem (s.slot n) m).byte a =
          match s.payload[a]? with | some b => b | none => (s.slot n).byte a)

/-- 41_pixel.md R146: PBREAD. -/
def Obligations.PbreadReturnsEveryByte : Prop :=
  (∀ n : SlotField, encode (.pbread n) = n.setWidth 32 <<< 8 ||| 0x15#32) ∧
  ∀ (s : State) (n : SlotField), Starts s n →
    ((s.slot n).state ≠ .live → exec (.pbread n) s = .next (reported s .disposed)) ∧
    ((s.slot n).state = .live →
      ∃ o : List Byte, exec (.pbread n) s = .next (completed s o) ∧ o.length = (byteSize (s.slot n)).toNat ∧
        ∀ k : Nat, (k : Int) < byteSize (s.slot n) → o[k]? = some ((s.slot n).byte k))

/-- 41_pixel.md R147: PBFREE. -/
def Obligations.PbfreeReleasesALiveSlot : Prop :=
  (∀ n : SlotField, encode (.pbfree n) = n.setWidth 32 <<< 8 ||| 0x16#32) ∧
  ∀ (s : State) (n : SlotField), Starts s n →
    ((s.slot n).state = .live →
      exec (.pbfree n) s = .next (completed
        (withSlot s n { state := .disposed, w := 0, h := 0, mem := [], fresh := 0 }) [])) ∧
    ((s.slot n).state ≠ .live → exec (.pbfree n) s = .next (completed s []))

/-- 41_pixel.md R148: PBDIM. -/
def Obligations.PbdimReadsTheDimensions : Prop :=
  (∀ n : SlotField, encode (.pbdim n) = n.setWidth 32 <<< 8 ||| 0x17#32) ∧
  ∀ (s : State) (n : SlotField), Starts s n →
    ∃ x y : Dword, x.toInt = (s.slot n).w.toInt ∧ y.toInt = (s.slot n).h.toInt ∧
      exec (.pbdim n) s = .next (completed { s with r0 := x, r1 := y } []) ∧
      (s.Inv → (s.slot n).state ≠ .live → x = 0 ∧ y = 0)

/-- 41_pixel.md R149: PBSIZE. In every state within the invariant the results are exact and within their bounds. -/
def Obligations.PbsizeReadsTheSizeAndCount : Prop :=
  (∀ n : SlotField, encode (.pbsize n) = n.setWidth 32 <<< 8 ||| 0x18#32) ∧
  ∀ (s : State) (n : SlotField), Starts s n → s.Inv →
    ∃ x y : Dword, x.toInt = byteSize (s.slot n) ∧ y.toInt = (s.slot n).w.toInt * (s.slot n).h.toInt ∧
      0 ≤ x.toInt ∧ x.toInt ≤ 2147483647 ∧ 0 ≤ y.toInt ∧ y.toInt ≤ 536870911 ∧
      exec (.pbsize n) s = .next (completed { s with r0 := x, r1 := y } []) ∧
      ((s.slot n).state ≠ .live → x = 0 ∧ y = 0)

/-- 41_pixel.md R150: PBSTRIDE, exact up to 8589934588, and at most the size of a buffer of height 1 or more. -/
def Obligations.PbstrideReadsTheStride : Prop :=
  (∀ n : SlotField, encode (.pbstride n) = n.setWidth 32 <<< 8 ||| 0x19#32) ∧
  ∀ (s : State) (n : SlotField), Starts s n →
    ∃ x : Dword, x.toInt = (s.slot n).w.toInt * 4 ∧ x.toInt ≤ 8589934588 ∧
      exec (.pbstride n) s = .next (completed { s with r0 := x } []) ∧
      (s.Inv → (s.slot n).state ≠ .live → x = 0) ∧
      (s.Inv → 1 ≤ (s.slot n).h.toInt → x.toInt ≤ byteSize (s.slot n))

/-- 41_pixel.md R140: a PBU command reads and writes only the slot it names: other slots never change, and two states that differ
only in other slots get the same outcome. -/
def Obligations.PbuCommandsSeeOnlyTheirOwnSlot : Prop :=
  ∀ (i : Instr) (n : SlotField) (s : State) (others : List Slot), i.slot? = some n → others.length = s.slots.length →
    ({ s with slots := others } : State).slot n = s.slot n →
    ∃ t t', exec i s = .next t ∧ exec i { s with slots := others } = .next t' ∧
      t'.code = t.code ∧ t'.sticky = t.sticky ∧ t'.r0 = t.r0 ∧ t'.r1 = t.r1 ∧ t'.replies = t.replies ∧ t'.draws = t.draws ∧
      t'.slot n = t.slot n ∧
      (∀ m, m ≠ n → t.slot m = s.slot m ∧ t'.slot m = ({ s with slots := others } : State).slot m)

/-- The pixel index PBGET and PBSET use is a bijection from the in-bounds coordinates of a slot to the numbers below its pixel count,
row by row; every pixel's word is inside the memory; and so PBSET changes only bytes inside it and PBGET depends only on those. -/
def Obligations.PixelWordsLieInsideTheMemory : Prop :=
  (∀ (sl : Slot) (x y : Int) (i : Nat), sl.pixelIndex x y = some i →
    0 ≤ x ∧ x < sl.w.toInt ∧ 0 ≤ y ∧ y < sl.h.toInt ∧
    ((4 * i : Nat) : Int) = y * (sl.w.toInt * 4) + 4 * x ∧ ((4 * i + 4 : Nat) : Int) ≤ byteSize sl ∧
    ∀ x' y' : Int, sl.pixelIndex x' y' = some i → x' = x ∧ y' = y) ∧
  (∀ (sl : Slot) (i : Nat), 0 ≤ sl.w.toInt → ((4 * i : Nat) : Int) < byteSize sl → ∃ x y : Int, sl.pixelIndex x y = some i) ∧
  (∀ (s : State) (n : SlotField), InBounds s n →
    ∃ i, (s.slot n).pixelIndex (firstS32 s) (secondS32 s) = some i ∧ 4 * i = pixelAddress s n) ∧
  (∀ (s t : State) (n : SlotField), exec (.pbset n) s = .next t →
    ∀ a : Nat, (t.slot n).byte a ≠ (s.slot n).byte a → (a : Int) < byteSize (s.slot n)) ∧
  (∀ (s : State) (n : SlotField) (m : Memory),
    (∀ a : Nat, (a : Int) < byteSize (s.slot n) → (withMem (s.slot n) m).byte a = (s.slot n).byte a) →
    ∃ t t', exec (.pbget n) s = .next t ∧ exec (.pbget n) (withSlot s n (withMem (s.slot n) m)) = .next t' ∧
      t'.code = t.code ∧ t'.r0 = t.r0 ∧ t'.replies = t.replies)

/-- PBSET then PBGET returns the value, and no other pixel of the slot changes. -/
def Obligations.SettingThenGettingReturnsThePixel : Prop :=
  ∀ (s : State) (n : SlotField), s.Inv → n.toNat < s.cfg.numSlots → (s.slot n).state = .live → InBounds s n →
    ∃ t u, exec (.pbset n) s = .next t ∧ exec (.pbget n) t = .next u ∧ u.r0.extractLsb' 0 32 = s.a2.extractLsb' 0 32 ∧
      ∀ a0' a1' : Dword,
        firstS32 { s with a0 := a0' } ≠ firstS32 s ∨ secondS32 { s with a1 := a1' } ≠ secondS32 s →
        ∃ v v', exec (.pbget n) { s with a0 := a0', a1 := a1' } = .next v ∧
          exec (.pbget n) { t with a0 := a0', a1 := a1' } = .next v' ∧ v'.code = v.code ∧ v'.r0 = v.r0

/-- PBFILL of a whole buffer, then PBREAD, gives the payload back. -/
def Obligations.FillingThenReadingReturnsThePayload : Prop :=
  ∀ (s : State) (n : SlotField) (p : List Byte), s.Inv → n.toNat < s.cfg.numSlots → (s.slot n).state = .live →
    (p.length : Int) = byteSize (s.slot n) →
    ∃ t u st, exec (.pbfill n) { s with payload := p } = .next t ∧ exec (.pbread n) t = .next u ∧ t.code = .ok ∧ u.code = .ok ∧
      u.replies = .command st p :: t.replies

/-- Word and byte accesses see each other's bytes: a pixel word got after a fill is made of the payload's bytes in ENDIAN order, and
the output read after a pixel write holds the value's bytes at the pixel's address. -/
def Obligations.WordAndByteAccessesAgree : Prop :=
  ∀ (s : State) (n : SlotField), s.Inv → n.toNat < s.cfg.numSlots → (s.slot n).state = .live → InBounds s n →
    (∀ (p : List Byte) (b0 b1 b2 b3 : Byte), (p.length : Int) ≤ byteSize (s.slot n) →
      p[pixelAddress s n]? = some b0 → p[pixelAddress s n + 1]? = some b1 → p[pixelAddress s n + 2]? = some b2 →
      p[pixelAddress s n + 3]? = some b3 →
      ∃ t u, exec (.pbfill n) { s with payload := p } = .next t ∧ exec (.pbget n) t = .next u ∧ u.code = .ok ∧
        u.r0 = 0#32 ++ wordInOrder s.cfg.endian b0 b1 b2 b3) ∧
    (∃ t u st o, exec (.pbset n) s = .next t ∧ exec (.pbread n) t = .next u ∧ u.replies = .command st o :: t.replies ∧
      ∀ k : Nat, k < 4 → o[pixelAddress s n + k]? = some (imageByte s.cfg.endian (s.a2.extractLsb' 0 32) k))

/-- 20_memory.md R64: after PBFREE every command that would touch the slot's memory raises Disposed, whatever it is given; a PBCREATE
that then succeeds has fresh draws that no live slot holds. -/
def Obligations.AfterAFreeEveryAccessRaisesDisposed : Prop :=
  ∀ (s : State) (n : SlotField), s.Inv → n.toNat < s.cfg.numSlots →
    ∃ t, exec (.pbfree n) s = .next t ∧
      (∀ b0 b1 b2 : Dword, ∀ i ∈ [Instr.pbget n, .pbset n, .pbalpha n, .pbread n],
        exec i { t with a0 := b0, a1 := b1, a2 := b2 } = .next (reported { t with a0 := b0, a1 := b1, a2 := b2 } .disposed)) ∧
      (∀ p : List Byte, exec (.pbfill n) { t with payload := p } = .next (reported { t with payload := p } .disposed)) ∧
      (∀ (b0 b1 : Dword) (ok : Bool) (u : State), exec (.pbcreate n) { t with a0 := b0, a1 := b1, allocOk := ok } = .next u →
        u.code = .ok → (∀ a, (u.slot n).byte a = Config.initByte t.draws a) ∧
          ∀ m, (t.slot m).isLive → (t.slot m).fresh ≠ t.draws)

/-- Two PBFREE commands of one slot release its buffer once: the second changes no slot and reports OK. -/
def Obligations.FreeingTwiceReleasesOnce : Prop :=
  ∀ (s : State) (n : SlotField), s.Inv → n.toNat < s.cfg.numSlots →
    ∃ t u, exec (.pbfree n) s = .next t ∧ exec (.pbfree n) t = .next u ∧ t.code = .ok ∧ u.code = .ok ∧
      ¬ (t.slot n).isLive ∧ (t.slot n).w = 0 ∧ (t.slot n).h = 0 ∧ u.slots = t.slots ∧ u = completed t []
end

