-- ==== Sys2Proof/Laws/Binary64.lean ====
section
/-! SUPPORT. What each operation of binary64 arithmetic does, said once (00_scope.md R14; log entry 15). -/

namespace Sys2Proof.Machine

/-- The number a finite F64 denotes; 0 for the others. -/
def F64.value : F64 → ℚ
  | .finite neg m e => (if neg then -1 else 1) * (m * (2 : ℚ) ^ e)
  | .nan => 0
  | .infinite _ => 0

@[simp] theorem F64.value_finite (neg : Bool) (m : Nat) (e : Int) :
    (F64.finite neg m e).value = (if neg then -1 else 1) * (m * (2 : ℚ) ^ e) := rfl

theorem F64.den_pos (p : F64) : 0 < p.den := by
  cases p <;> simp [F64.den]

/-- The fraction `num / den` is the number. -/
theorem F64.num_div_den (p : F64) : (p.num : ℚ) / p.den = p.value := by
  cases p with
  | nan => simp [F64.num, F64.value]
  | infinite neg => simp [F64.num, F64.value]
  | finite neg m e =>
    have h : ((2 ^ e.toNat : Nat) : ℚ) / (2 ^ (-e).toNat : Nat) = (2 : ℚ) ^ e := by
      rcases Int.le_total 0 e with he | he
      · obtain ⟨n, rfl⟩ := Int.eq_ofNat_of_zero_le he
        simp
      · obtain ⟨n, hn⟩ := Int.eq_ofNat_of_zero_le (Int.neg_nonneg.mpr he)
        obtain rfl : e = -n := by omega
        simp [one_div]
    simp only [F64.num, F64.den, F64.value, Int.cast_mul, Int.cast_natCast, Nat.cast_mul, ← h]
    cases neg <;> simp <;> ring

/-- A pattern whose exponent field is not all ones denotes a finite number, of at most 53 bits above 2^-1074. -/
theorem f64_finite {v : Dword} (h : v.extractLsb' 52 11 ≠ 0x7FF#11) :
    ∃ m e, f64 v = .finite (v.getLsbD 63) m e ∧ m < 2 ^ 53 ∧ -1074 ≤ e ∧ e ≤ 971 ∧
      ((v.extractLsb' 52 11 = 0#11 ∧ m = (v.extractLsb' 0 52).toNat ∧ e = -1074) ∨
       (v.extractLsb' 52 11 ≠ 0#11 ∧ m = 2 ^ 52 + (v.extractLsb' 0 52).toNat ∧ e = ((v.extractLsb' 52 11).toNat : Int) - 1075)) := by
  have hb : (v.extractLsb' 52 11).toNat ≠ 2047 := fun hc => h (BitVec.eq_of_toNat_eq hc)
  have hb' := (v.extractLsb' 52 11).isLt
  have hf := (v.extractLsb' 0 52).isLt
  unfold f64
  dsimp only
  rw [if_neg hb]
  by_cases h0 : (v.extractLsb' 52 11).toNat = 0
  · rw [if_pos h0]
    exact ⟨_, _, rfl, by omega, by omega, by omega, .inl ⟨BitVec.eq_of_toNat_eq h0, rfl, rfl⟩⟩
  · rw [if_neg h0]
    exact ⟨_, _, rfl, by omega, by omega, by omega, .inr ⟨fun hc => h0 (by rw [hc]; rfl), rfl, rfl⟩⟩

theorem f64_nan_or_infinite {v : Dword} (h : v.extractLsb' 52 11 = 0x7FF#11) :
    f64 v = .nan ∨ f64 v = .infinite (v.getLsbD 63) := by
  unfold f64
  dsimp only
  rw [if_pos (by rw [h]; rfl)]
  split
  · exact .inr rfl
  · exact .inl rfl

theorem tenThousand_eq : tenThousand = .finite false 5497558138880000 (-39) := by decide

/-- Rounding at 2^k goes to a nearest integer, and to the even one of two. -/
theorem shiftRne_spec (n k : Nat) :
    2 * n ≤ (2 * shiftRne n k + 1) * 2 ^ k ∧ 2 * shiftRne n k * 2 ^ k ≤ 2 * n + 2 ^ k ∧
    (2 * n = (2 * shiftRne n k + 1) * 2 ^ k ∨ 2 * shiftRne n k * 2 ^ k = 2 * n + 2 ^ k → shiftRne n k % 2 = 0) := by
  have hd := Nat.div_add_mod n (2 ^ k)
  have hr := Nat.mod_lt n (Nat.two_pow_pos k)
  have hp := Nat.two_pow_pos k
  unfold shiftRne
  dsimp only
  generalize n / 2 ^ k = q at *
  generalize n % 2 ^ k = r at *
  generalize 2 ^ k = p at *
  subst hd
  have e1 : (2 * q + 1) * p = 2 * (p * q) + p := by ring
  have e2 : (2 * (q + 1) + 1) * p = 2 * (p * q) + 3 * p := by ring
  have e3 : 2 * q * p = 2 * (p * q) := by ring
  have e4 : 2 * (q + 1) * p = 2 * (p * q) + 2 * p := by ring
  split
  · rw [e2, e4]; omega
  · rw [e1, e3]; omega

theorem bitLength_spec {n : Nat} (h : 0 < n) : 2 ^ (bitLength n - 1) ≤ n ∧ n < 2 ^ bitLength n ∧ 0 < bitLength n := by
  have h0 : n ≠ 0 := by omega
  rw [bitLength, if_neg h0]
  exact ⟨Nat.log2_self_le h0, Nat.lt_log2_self, by omega⟩

theorem bitLength_le {n k : Nat} (h : n < 2 ^ k) : bitLength n ≤ k := by
  unfold bitLength
  split
  · omega
  · rename_i h0
    exact (Nat.log2_lt h0).mpr h

/-- A number rounded at its last place is within half of that place, and at exactly half the result is even. -/
theorem shiftRne_near (mag k : Nat) (exp : Int) :
    |(mag : ℚ) * 2 ^ exp - shiftRne mag k * 2 ^ (exp + k)| ≤ 2 ^ (exp + k) / 2 ∧
    (|(mag : ℚ) * 2 ^ exp - shiftRne mag k * 2 ^ (exp + k)| = 2 ^ (exp + k) / 2 → shiftRne mag k % 2 = 0) := by
  obtain ⟨h1, h2, h3⟩ := shiftRne_spec mag k
  generalize shiftRne mag k = r at *
  have hE : (0 : ℚ) < 2 ^ exp := by positivity
  have e1 : (2 : ℚ) ^ (exp + k) = 2 ^ exp * 2 ^ k := by rw [zpow_add₀ (by norm_num)]; simp
  have q1 : (2 * mag : ℚ) ≤ (2 * r + 1) * 2 ^ k := by exact_mod_cast h1
  have q2 : (2 * r * 2 ^ k : ℚ) ≤ 2 * mag + 2 ^ k := by exact_mod_cast h2
  rw [e1, show (mag : ℚ) * 2 ^ exp - r * (2 ^ exp * 2 ^ k) = 2 ^ exp * (mag - r * 2 ^ k) by ring, abs_mul, abs_of_pos hE,
    mul_div_assoc]
  refine ⟨mul_le_mul_of_nonneg_left (abs_le.mpr ⟨by linarith, by linarith⟩) hE.le, fun he => h3 ?_⟩
  have he' := mul_left_cancel₀ hE.ne' he
  rcases abs_choice ((mag : ℚ) - r * 2 ^ k) with h | h <;> rw [h] at he'
  · left
    have : (2 * mag : ℚ) = (2 * r + 1) * 2 ^ k := by linarith
    exact_mod_cast this
  · right
    have : (2 * r * 2 ^ k : ℚ) = 2 * mag + 2 ^ k := by linarith
    exact_mod_cast this

/-- The last place of a number that is not 0, or whose exponent is low: it takes at most 53 bits above it, and 53 unless the place is
the lowest. -/
theorem lastPlace_spec (mag : Nat) (exp : Int) (h0 : 0 < mag ∨ exp ≤ -1021) :
    -1074 ≤ lastPlace mag exp ∧ (mag : ℚ) * 2 ^ exp < 2 ^ 53 * 2 ^ lastPlace mag exp ∧
    (lastPlace mag exp = -1074 ∨ 2 ^ 52 * 2 ^ lastPlace mag exp ≤ (mag : ℚ) * 2 ^ exp) := by
  have hE0 : (0 : ℚ) < 2 ^ exp := by positivity
  refine ⟨by unfold lastPlace; omega, ?_, ?_⟩
  · have h1 : (mag : ℚ) < 2 ^ bitLength mag := by
      rcases Nat.eq_zero_or_pos mag with h | h
      · rw [h]; norm_num [bitLength]
      · exact_mod_cast (bitLength_spec h).2.1
    calc (mag : ℚ) * 2 ^ exp < 2 ^ bitLength mag * 2 ^ exp := mul_lt_mul_of_pos_right h1 hE0
      _ = (2 : ℚ) ^ (exp + bitLength mag) := by rw [zpow_add₀ (by norm_num), mul_comm]; simp
      _ ≤ 2 ^ (53 + lastPlace mag exp) := zpow_le_zpow_right₀ (by norm_num) (by unfold lastPlace; omega)
      _ = 2 ^ 53 * 2 ^ lastPlace mag exp := by rw [zpow_add₀ (by norm_num)]; norm_cast
  · by_cases h : lastPlace mag exp = -1074
    · exact .inl h
    right
    have h0 : 0 < mag := by
      rcases Nat.eq_zero_or_pos mag with hz | hz
      · subst hz; unfold lastPlace at h; simp [bitLength] at h; omega
      · exact hz
    obtain ⟨h1, -, h3⟩ := bitLength_spec h0
    have h1' : (2 : ℚ) ^ (bitLength mag - 1) ≤ mag := by exact_mod_cast h1
    have h2 : lastPlace mag exp = exp + bitLength mag - 53 := by unfold lastPlace at h ⊢; omega
    calc (2 : ℚ) ^ 52 * 2 ^ lastPlace mag exp = 2 ^ (52 + lastPlace mag exp) := by rw [zpow_add₀ (by norm_num)]; norm_cast
      _ = 2 ^ (exp + ((bitLength mag - 1 : Nat) : Int)) := by congr 1; omega
      _ = 2 ^ (bitLength mag - 1) * 2 ^ exp := by rw [zpow_add₀ (by norm_num), mul_comm]; norm_cast
      _ ≤ mag * 2 ^ exp := mul_le_mul_of_nonneg_right h1' hE0.le

/-- Where the last place is not below the number's own exponent, rounding is one shift, and then the test for infinity. -/
theorem roundRne_eq (neg : Bool) (mag : Nat) {exp : Int} {k : Nat} (h : lastPlace mag exp = exp + k) :
    roundRne neg mag exp =
      if 1024 < (bitLength (shiftRne mag k) : Int) + (exp + k) then .infinite neg else .finite neg (shiftRne mag k) (exp + k) := by
  unfold roundRne
  dsimp only
  rw [h]
  by_cases hk : k = 0
  · subst hk
    have h0 : shiftRne mag 0 = mag := by unfold shiftRne; simp; omega
    simp [h0]
  · have hlt : ¬ exp + (k : Int) ≤ exp := by omega
    rw [if_neg hlt, if_neg hlt, show (exp + k - exp).toNat = k by omega]

/-- The range test of MS2T, over the number itself. -/
theorem ticksOf_range (neg : Bool) (m : Nat) (e : Int) :
    (-2 ^ 63 * ((F64.finite neg m e).den : Int) ≤ (F64.finite neg m e).num ∧
      (F64.finite neg m e).num < 2 ^ 63 * ((F64.finite neg m e).den : Int)) ↔
    -2 ^ 63 ≤ (F64.finite neg m e).value ∧ (F64.finite neg m e).value < 2 ^ 63 := by
  have hd : (0 : ℚ) < (F64.finite neg m e).den := by exact_mod_cast F64.den_pos _
  rw [← F64.num_div_den, le_div_iff₀ hd, div_lt_iff₀ hd, ← @Int.cast_le ℚ, ← @Int.cast_lt ℚ]
  push_cast
  rfl

/-- The whole ticks of a finite product in the signed 64-bit range are its integer part. -/
theorem ticksOf_inside {neg : Bool} {m : Nat} {e : Int}
    (h : -2 ^ 63 ≤ (F64.finite neg m e).value ∧ (F64.finite neg m e).value < 2 ^ 63) :
    ticksOf (.finite neg m e) = some ((F64.finite neg m e).num.tdiv (F64.finite neg m e).den) :=
  if_pos ((ticksOf_range neg m e).mpr h)

/-- A finite product outside the range has no whole ticks. -/
theorem ticksOf_outside {neg : Bool} {m : Nat} {e : Int}
    (h : ¬ (-2 ^ 63 ≤ (F64.finite neg m e).value ∧ (F64.finite neg m e).value < 2 ^ 63)) :
    ticksOf (.finite neg m e) = none :=
  if_neg (mt (ticksOf_range neg m e).mp h)

end Sys2Proof.Machine
end

