-- ==== Sys2Proof/Laws/Memory.lean ====
section
/-! SUPPORT. The laws of pixel memory: read after write, and that every operation keeps the canonical form. -/

namespace Sys2Proof.Machine

@[simp] theorem Memory.read_nil (a : Nat) : Memory.read [] a = none := rfl

@[simp] theorem Memory.read_cons (c : Host.Cell) (m : Memory) (a : Nat) :
    Memory.read (c :: m) a = if a = c.1 then some c.2 else Memory.read m a := rfl

/-- A read after a write. -/
@[simp] theorem Memory.read_write (m : Memory) (a : Nat) (b : Byte) (x : Nat) :
    Memory.read (Memory.write m a b) x = if x = a then some b else Memory.read m x := by
  induction m with
  | nil => rfl
  | cons c m ih =>
    unfold Memory.write
    split
    · rfl
    · split
      · rename_i h; subst h; by_cases hx : x = c.1 <;> simp [hx]
      · rename_i h₁ h₂
        simp only [Memory.read_cons, ih]
        by_cases hx : x = c.1
        · subst hx; simp [Ne.symm h₂]
        · simp [hx]

/-- The addresses a write lists. -/
theorem Memory.mem_write {m : Memory} {a : Nat} {b : Byte} {c : Host.Cell} (h : c ∈ Memory.write m a b) :
    c = (a, b) ∨ c ∈ m := by
  induction m with
  | nil => simpa [Memory.write] using h
  | cons d m ih =>
    unfold Memory.write at h
    split at h
    · simpa using h
    · split at h
      · rcases List.mem_cons.mp h with h | h
        · exact .inl h
        · exact .inr (List.mem_cons_of_mem _ h)
      · rcases List.mem_cons.mp h with h | h
        · exact .inr (h ▸ List.mem_cons_self)
        · exact (ih h).imp id (List.mem_cons_of_mem _)

theorem Memory.wf_nil : Memory.Wf [] := List.Pairwise.nil

/-- A write keeps the canonical form. -/
theorem Memory.write_wf {m : Memory} (a : Nat) (b : Byte) (h : Memory.Wf m) : Memory.Wf (Memory.write m a b) := by
  induction m with
  | nil => simp [Memory.write, Memory.Wf]
  | cons c m ih =>
    have ⟨hc, hm⟩ := List.pairwise_cons.mp h
    unfold Memory.write
    split
    · rename_i hlt
      refine List.pairwise_cons.mpr ⟨fun d hd => ?_, h⟩
      rcases List.mem_cons.mp hd with rfl | hd
      · exact hlt
      · exact Nat.lt_trans hlt (hc d hd)
    · split
      · rename_i heq; subst heq
        exact List.pairwise_cons.mpr ⟨hc, hm⟩
      · refine List.pairwise_cons.mpr ⟨fun d hd => ?_, ih hm⟩
        rcases Memory.mem_write hd with rfl | hd
        · change c.1 < a; omega
        · exact hc d hd

/-- Reading after writing consecutive bytes: the byte written last where one was written, else what stood there. -/
@[simp] theorem Memory.read_writeList (m : Memory) (a : Nat) (bs : List Byte) (x : Nat) :
    Memory.read (Memory.writeList m a bs) x =
      if a ≤ x ∧ x < a + bs.length then bs[x - a]? else Memory.read m x := by
  induction bs generalizing m a with
  | nil => simp [Memory.writeList]
  | cons b bs ih =>
    rw [Memory.writeList, ih, Memory.read_write]
    by_cases hx : x = a
    · subst hx; simp
    · by_cases h : a + 1 ≤ x ∧ x < a + 1 + bs.length
      · have h' : a ≤ x ∧ x < a + (b :: bs).length := by simp; omega
        rw [if_pos h, if_pos h']
        obtain ⟨k, rfl⟩ : ∃ k, x = a + 1 + k := ⟨x - (a + 1), by omega⟩
        rw [show a + 1 + k - (a + 1) = k by omega, show a + 1 + k - a = k + 1 by omega]
        rfl
      · have h' : ¬ (a ≤ x ∧ x < a + (b :: bs).length) := by simp; omega
        rw [if_neg h, if_neg h', if_neg hx]

/-- Writing consecutive bytes keeps the canonical form. -/
theorem Memory.writeList_wf {m : Memory} (a : Nat) (bs : List Byte) (h : Memory.Wf m) :
    Memory.Wf (Memory.writeList m a bs) := by
  induction bs generalizing m a with
  | nil => exact h
  | cons b bs ih => exact ih _ (Memory.write_wf a b h)

/-- The addresses written are those of the bytes. -/
theorem Memory.mem_writeList {m : Memory} {a : Nat} {bs : List Byte} {c : Host.Cell}
    (h : c ∈ Memory.writeList m a bs) : (a ≤ c.1 ∧ c.1 < a + bs.length) ∨ c ∈ m := by
  induction bs generalizing m a with
  | nil => exact .inr h
  | cons b bs ih =>
    rcases ih h with h | h
    · left; simp; omega
    · rcases Memory.mem_write h with rfl | h
      · left; simp
      · exact .inr h

end Sys2Proof.Machine
end

