-- ==== Sys2Proof/Laws/Bytes.lean ====
section
/-! SUPPORT. The laws of byte images and of pixel memory seen through a slot (00_scope.md R11, R12). -/

namespace Sys2Proof.Machine

/-- The four bytes of a word, in ENDIAN order. -/
theorem bytesOf_four (e : Endian) (v : Word) :
    bytesOf e 4 v = match e with
      | .little => [lane v 0, lane v 1, lane v 2, lane v 3]
      | .big => [lane v 3, lane v 2, lane v 1, lane v 0] := by
  cases e <;> rfl

@[simp] theorem bytesOf_length (e : Endian) (n : Nat) {w : Nat} (v : BitVec w) : (bytesOf e n v).length = n := by
  simp [bytesOf]

theorem bytesOf_getElem? (e : Endian) (n : Nat) {w : Nat} (v : BitVec w) {k : Nat} (h : k < n) :
    (bytesOf e n v)[k]? = some (lane v (laneOfByte e n k)) := by
  simp [bytesOf, h]

/-- The word whose lanes are four given bytes. -/
theorem fromLanes_four (b0 b1 b2 b3 : Byte) : fromLanes 32 [b0, b1, b2, b3] = b3 ++ b2 ++ b1 ++ b0 := by
  apply BitVec.eq_of_getLsbD_eq
  intro i hi
  simp only [fromLanes, BitVec.getLsbD_or, BitVec.getLsbD_shiftLeft, BitVec.getLsbD_setWidth, BitVec.getLsbD_append,
    hi, decide_true, Bool.true_and]
  interval_cases i <;> simp

/-- FromBytes_4 spelled out. -/
theorem fromBytes_four (e : Endian) (b0 b1 b2 b3 : Byte) :
    fromBytes e 32 [b0, b1, b2, b3] = match e with
      | .little => b3 ++ b2 ++ b1 ++ b0
      | .big => b0 ++ b1 ++ b2 ++ b3 := by
  cases e <;> exact fromLanes_four _ _ _ _

/-- Lane k of a word made of four bytes. -/
theorem lane_append_four (b0 b1 b2 b3 : Byte) :
    lane (b3 ++ b2 ++ b1 ++ b0 : Word) 0 = b0 ∧ lane (b3 ++ b2 ++ b1 ++ b0 : Word) 1 = b1 ∧
    lane (b3 ++ b2 ++ b1 ++ b0 : Word) 2 = b2 ∧ lane (b3 ++ b2 ++ b1 ++ b0 : Word) 3 = b3 := by
  refine ⟨?_, ?_, ?_, ?_⟩ <;> apply BitVec.eq_of_getLsbD_eq <;> intro i hi <;>
    simp only [lane, BitVec.getLsbD_extractLsb', BitVec.getLsbD_append, hi, decide_true, Bool.true_and] <;>
    interval_cases i <;> simp

/-- A word is its four lanes. -/
theorem append_lanes (v : Word) : (lane v 3 ++ lane v 2 ++ lane v 1 ++ lane v 0 : Word) = v := by
  apply BitVec.eq_of_getLsbD_eq
  intro i hi
  simp only [lane, BitVec.getLsbD_extractLsb', BitVec.getLsbD_append]
  interval_cases i <;> simp

/-- FromBytes_4 is the inverse of Bytes_4 (R11). -/
@[simp] theorem fromBytes_bytesOf (e : Endian) (v : Word) : fromBytes e 32 (bytesOf e 4 v) = v := by
  cases e <;> simp only [bytesOf_four, fromBytes_four, append_lanes]

/-- Bytes_4 is the inverse of FromBytes_4 (R11). -/
theorem bytesOf_fromBytes (e : Endian) (b0 b1 b2 b3 : Byte) :
    bytesOf e 4 (fromBytes e 32 [b0, b1, b2, b3]) = [b0, b1, b2, b3] := by
  cases e
  · obtain ⟨h0, h1, h2, h3⟩ := lane_append_four b0 b1 b2 b3
    simp only [bytesOf_four, fromBytes_four, h0, h1, h2, h3]
  · obtain ⟨h0, h1, h2, h3⟩ := lane_append_four b3 b2 b1 b0
    simp only [bytesOf_four, fromBytes_four, h0, h1, h2, h3]

/-! ### A slot's bytes -/

@[simp] theorem Slot.writeBytes_state (sl : Slot) (a : Nat) (bs : List Byte) : (sl.writeBytes a bs).state = sl.state := rfl
@[simp] theorem Slot.writeBytes_w (sl : Slot) (a : Nat) (bs : List Byte) : (sl.writeBytes a bs).w = sl.w := rfl
@[simp] theorem Slot.writeBytes_h (sl : Slot) (a : Nat) (bs : List Byte) : (sl.writeBytes a bs).h = sl.h := rfl
@[simp] theorem Slot.writeBytes_fresh (sl : Slot) (a : Nat) (bs : List Byte) : (sl.writeBytes a bs).fresh = sl.fresh := rfl
@[simp] theorem Slot.writeBytes_mem (sl : Slot) (a : Nat) (bs : List Byte) :
    (sl.writeBytes a bs).mem = Memory.writeList sl.mem a bs := rfl

/-- Everything a write of consecutive bytes does to what is read. -/
theorem Slot.byte_writeBytes (sl : Slot) (a : Nat) (bs : List Byte) (x : Nat) :
    (sl.writeBytes a bs).byte x = if a ≤ x ∧ x < a + bs.length then bs.getD (x - a) 0 else sl.byte x := by
  by_cases h : a ≤ x ∧ x < a + bs.length
  · have hx : x - a < bs.length := by omega
    simp [Slot.byte, h, hx]
  · simp only [Slot.byte, Slot.writeBytes_mem, Memory.read_writeList, if_neg h, Slot.writeBytes_fresh]

/-- Everything a word write does to what is read. -/
theorem Slot.byte_writeWord (sl : Slot) (e : Endian) (a : Nat) (v : Word) (x : Nat) :
    (sl.writeWord e a v).byte x =
      if a ≤ x ∧ x < a + 4 then lane v (laneOfByte e 4 (x - a)) else sl.byte x := by
  unfold Slot.writeWord
  rw [Slot.byte_writeBytes, bytesOf_length]
  split
  · rename_i h
    rw [List.getD_eq_getElem?_getD, bytesOf_getElem? e 4 v (by omega)]; rfl
  · rfl

/-- The four bytes of a pixel word. -/
theorem Slot.readWord_eq (sl : Slot) (e : Endian) (a : Nat) :
    sl.readWord e a = fromBytes e 32 [sl.byte a, sl.byte (a + 1), sl.byte (a + 2), sl.byte (a + 3)] := rfl

/-- A word read depends on its four bytes alone. -/
theorem Slot.readWord_congr {sl sl' : Slot} (e : Endian) (a : Nat) (h : ∀ k < 4, sl'.byte (a + k) = sl.byte (a + k)) :
    sl'.readWord e a = sl.readWord e a := by
  rw [Slot.readWord_eq, Slot.readWord_eq, show sl'.byte a = sl.byte a from h 0 (by omega), h 1 (by omega), h 2 (by omega),
    h 3 (by omega)]

/-- The word just written is the word read. -/
@[simp] theorem Slot.readWord_writeWord_same (sl : Slot) (e : Endian) (a : Nat) (v : Word) :
    (sl.writeWord e a v).readWord e a = v := by
  have h : ∀ k < 4, (sl.writeWord e a v).byte (a + k) = lane v (laneOfByte e 4 k) := fun k hk => by
    rw [Slot.byte_writeWord, if_pos (by omega), Nat.add_sub_cancel_left]
  rw [Slot.readWord_eq, show (sl.writeWord e a v).byte a = _ from h 0 (by omega), h 1 (by omega), h 2 (by omega), h 3 (by omega)]
  exact fromBytes_bytesOf e v

/-- A word write leaves a word that shares no byte with it alone. -/
theorem Slot.readWord_writeWord_other (sl : Slot) (e : Endian) {a a' : Nat} (v : Word) (h : a' + 4 ≤ a ∨ a + 4 ≤ a') :
    (sl.writeWord e a v).readWord e a' = sl.readWord e a' :=
  Slot.readWord_congr e a' fun k hk => by rw [Slot.byte_writeWord, if_neg (by omega)]

/-- The bytes of the word just read, written back, are those that stood there. -/
theorem Slot.lane_readWord (sl : Slot) (e : Endian) (a k : Nat) (h : k < 4) :
    lane (sl.readWord e a) (laneOfByte e 4 k) = sl.byte (a + k) := by
  have hb := bytesOf_fromBytes e (sl.byte a) (sl.byte (a + 1)) (sl.byte (a + 2)) (sl.byte (a + 3))
  have hk := bytesOf_getElem? e 4 (sl.readWord e a) h
  rw [Slot.readWord_eq, hb] at hk
  rw [Slot.readWord_eq]
  interval_cases k <;> simpa using hk.symm

@[simp] theorem Slot.byteList_length (sl : Slot) (a n : Nat) : (sl.byteList a n).length = n := by
  simp [Slot.byteList]

theorem Slot.byteList_getElem? (sl : Slot) (a n : Nat) {k : Nat} (h : k < n) :
    (sl.byteList a n)[k]? = some (sl.byte (a + k)) := by
  simp [Slot.byteList, h]

/-! ### PBALPHA's loop -/

theorem Slot.alphaPixels_succ (sl : Slot) (e : Endian) (n : Nat) :
    sl.alphaPixels e (n + 1) = Slot.alphaPixel e (sl.alphaPixels e n) n := by
  simp [Slot.alphaPixels, List.range_succ]

/-- Everything the loop does besides memory: nothing. -/
theorem Slot.alphaPixels_frame (sl : Slot) (e : Endian) (n : Nat) :
    (sl.alphaPixels e n).state = sl.state ∧ (sl.alphaPixels e n).w = sl.w ∧ (sl.alphaPixels e n).h = sl.h ∧
      (sl.alphaPixels e n).fresh = sl.fresh := by
  induction n with
  | zero => simp [Slot.alphaPixels]
  | succ n ih => rw [Slot.alphaPixels_succ]; exact ih

/-- Bytes beyond the loop's pixels are left alone. -/
theorem Slot.byte_alphaPixels_beyond (sl : Slot) (e : Endian) (n : Nat) {x : Nat} (h : 4 * n ≤ x) :
    (sl.alphaPixels e n).byte x = sl.byte x := by
  induction n with
  | zero => simp [Slot.alphaPixels]
  | succ n ih =>
    rw [Slot.alphaPixels_succ, Slot.alphaPixel, Slot.byte_writeWord, if_neg (by omega)]
    exact ih (by omega)

/-- Every pixel word of the loop gets alpha 0xFF and keeps its other lanes (41_pixel.md R144). -/
theorem Slot.readWord_alphaPixels (sl : Slot) (e : Endian) (n : Nat) {i : Nat} (h : i < n) :
    (sl.alphaPixels e n).readWord e (4 * i) = sl.readWord e (4 * i) ||| 0xFF000000 := by
  induction n with
  | zero => omega
  | succ n ih =>
    rw [Slot.alphaPixels_succ, Slot.alphaPixel]
    rcases Nat.lt_succ_iff_lt_or_eq.mp h with h | rfl
    · rw [Slot.readWord_writeWord_other _ _ _ (by omega), ih h]
    · rw [Slot.readWord_writeWord_same]
      congr 1
      exact Slot.readWord_congr e _ fun k _ => Slot.byte_alphaPixels_beyond sl e i (by omega)

/-- The loop keeps the canonical form and lists no address beyond its pixels that was not listed. -/
theorem Slot.alphaPixels_mem (sl : Slot) (e : Endian) (n : Nat) (h : Memory.Wf sl.mem) :
    Memory.Wf (sl.alphaPixels e n).mem ∧ ∀ c ∈ (sl.alphaPixels e n).mem, c.1 < 4 * n ∨ c ∈ sl.mem := by
  induction n with
  | zero => exact ⟨h, fun c hc => .inr hc⟩
  | succ n ih =>
    rw [Slot.alphaPixels_succ]
    refine ⟨Memory.writeList_wf _ _ ih.1, fun c hc => ?_⟩
    rcases Memory.mem_writeList hc with hc | hc
    · rw [bytesOf_length] at hc; left; omega
    · exact (ih.2 c hc).imp (by omega) id

end Sys2Proof.Machine
end

