-- ==== Sys2Proof/Laws/State.lean ====
section
/-! SUPPORT. One lemma for each field of State and each update of it, so that no later proof unfolds a record update. -/

namespace Sys2Proof.Machine

variable (s : State)

@[simp] theorem State.raise_a0 (c : Code) : (s.raise c).a0 = s.a0 := rfl
@[simp] theorem State.raise_a1 (c : Code) : (s.raise c).a1 = s.a1 := rfl
@[simp] theorem State.raise_a2 (c : Code) : (s.raise c).a2 = s.a2 := rfl
@[simp] theorem State.raise_r0 (c : Code) : (s.raise c).r0 = s.r0 := rfl
@[simp] theorem State.raise_r1 (c : Code) : (s.raise c).r1 = s.r1 := rfl
@[simp] theorem State.raise_code (c : Code) : (s.raise c).code = c := rfl
@[simp] theorem State.raise_sticky (c : Code) : (s.raise c).sticky = true := rfl
@[simp] theorem State.raise_slots (c : Code) : (s.raise c).slots = s.slots := rfl
@[simp] theorem State.raise_cfg (c : Code) : (s.raise c).cfg = s.cfg := rfl
@[simp] theorem State.raise_pending (c : Code) : (s.raise c).pending = s.pending := rfl
@[simp] theorem State.raise_payload (c : Code) : (s.raise c).payload = [] := rfl
@[simp] theorem State.raise_allocOk (c : Code) : (s.raise c).allocOk = s.allocOk := rfl
@[simp] theorem State.raise_draws (c : Code) : (s.raise c).draws = s.draws := rfl
@[simp] theorem State.raise_replies (c : Code) : (s.raise c).replies = .command (statusOf c true) [] :: s.replies := rfl

@[simp] theorem State.succeed_a0 (out : List Byte) : (s.succeed out).a0 = s.a0 := rfl
@[simp] theorem State.succeed_a1 (out : List Byte) : (s.succeed out).a1 = s.a1 := rfl
@[simp] theorem State.succeed_a2 (out : List Byte) : (s.succeed out).a2 = s.a2 := rfl
@[simp] theorem State.succeed_r0 (out : List Byte) : (s.succeed out).r0 = s.r0 := rfl
@[simp] theorem State.succeed_r1 (out : List Byte) : (s.succeed out).r1 = s.r1 := rfl
@[simp] theorem State.succeed_code (out : List Byte) : (s.succeed out).code = .ok := rfl
@[simp] theorem State.succeed_sticky (out : List Byte) : (s.succeed out).sticky = s.sticky := rfl
@[simp] theorem State.succeed_slots (out : List Byte) : (s.succeed out).slots = s.slots := rfl
@[simp] theorem State.succeed_cfg (out : List Byte) : (s.succeed out).cfg = s.cfg := rfl
@[simp] theorem State.succeed_pending (out : List Byte) : (s.succeed out).pending = s.pending := rfl
@[simp] theorem State.succeed_payload (out : List Byte) : (s.succeed out).payload = [] := rfl
@[simp] theorem State.succeed_allocOk (out : List Byte) : (s.succeed out).allocOk = s.allocOk := rfl
@[simp] theorem State.succeed_draws (out : List Byte) : (s.succeed out).draws = s.draws := rfl
@[simp] theorem State.succeed_replies (out : List Byte) : (s.succeed out).replies = .command (statusOf .ok s.sticky) out :: s.replies := rfl

@[simp] theorem State.setReg_a0_a0 (v : Dword) : (s.setReg .a0 v).a0 = v := rfl
@[simp] theorem State.setReg_a0_a1 (v : Dword) : (s.setReg .a0 v).a1 = s.a1 := rfl
@[simp] theorem State.setReg_a0_a2 (v : Dword) : (s.setReg .a0 v).a2 = s.a2 := rfl
@[simp] theorem State.setReg_a0_r0 (v : Dword) : (s.setReg .a0 v).r0 = s.r0 := rfl
@[simp] theorem State.setReg_a0_r1 (v : Dword) : (s.setReg .a0 v).r1 = s.r1 := rfl
@[simp] theorem State.setReg_a0_code (v : Dword) : (s.setReg .a0 v).code = s.code := rfl
@[simp] theorem State.setReg_a0_sticky (v : Dword) : (s.setReg .a0 v).sticky = s.sticky := rfl
@[simp] theorem State.setReg_a0_slots (v : Dword) : (s.setReg .a0 v).slots = s.slots := rfl
@[simp] theorem State.setReg_a0_cfg (v : Dword) : (s.setReg .a0 v).cfg = s.cfg := rfl
@[simp] theorem State.setReg_a0_pending (v : Dword) : (s.setReg .a0 v).pending = s.pending := rfl
@[simp] theorem State.setReg_a0_payload (v : Dword) : (s.setReg .a0 v).payload = s.payload := rfl
@[simp] theorem State.setReg_a0_allocOk (v : Dword) : (s.setReg .a0 v).allocOk = s.allocOk := rfl
@[simp] theorem State.setReg_a0_draws (v : Dword) : (s.setReg .a0 v).draws = s.draws := rfl
@[simp] theorem State.setReg_a0_replies (v : Dword) : (s.setReg .a0 v).replies = s.replies := rfl

@[simp] theorem State.setReg_a1_a0 (v : Dword) : (s.setReg .a1 v).a0 = s.a0 := rfl
@[simp] theorem State.setReg_a1_a1 (v : Dword) : (s.setReg .a1 v).a1 = v := rfl
@[simp] theorem State.setReg_a1_a2 (v : Dword) : (s.setReg .a1 v).a2 = s.a2 := rfl
@[simp] theorem State.setReg_a1_r0 (v : Dword) : (s.setReg .a1 v).r0 = s.r0 := rfl
@[simp] theorem State.setReg_a1_r1 (v : Dword) : (s.setReg .a1 v).r1 = s.r1 := rfl
@[simp] theorem State.setReg_a1_code (v : Dword) : (s.setReg .a1 v).code = s.code := rfl
@[simp] theorem State.setReg_a1_sticky (v : Dword) : (s.setReg .a1 v).sticky = s.sticky := rfl
@[simp] theorem State.setReg_a1_slots (v : Dword) : (s.setReg .a1 v).slots = s.slots := rfl
@[simp] theorem State.setReg_a1_cfg (v : Dword) : (s.setReg .a1 v).cfg = s.cfg := rfl
@[simp] theorem State.setReg_a1_pending (v : Dword) : (s.setReg .a1 v).pending = s.pending := rfl
@[simp] theorem State.setReg_a1_payload (v : Dword) : (s.setReg .a1 v).payload = s.payload := rfl
@[simp] theorem State.setReg_a1_allocOk (v : Dword) : (s.setReg .a1 v).allocOk = s.allocOk := rfl
@[simp] theorem State.setReg_a1_draws (v : Dword) : (s.setReg .a1 v).draws = s.draws := rfl
@[simp] theorem State.setReg_a1_replies (v : Dword) : (s.setReg .a1 v).replies = s.replies := rfl

@[simp] theorem State.setReg_a2_a0 (v : Dword) : (s.setReg .a2 v).a0 = s.a0 := rfl
@[simp] theorem State.setReg_a2_a1 (v : Dword) : (s.setReg .a2 v).a1 = s.a1 := rfl
@[simp] theorem State.setReg_a2_a2 (v : Dword) : (s.setReg .a2 v).a2 = v := rfl
@[simp] theorem State.setReg_a2_r0 (v : Dword) : (s.setReg .a2 v).r0 = s.r0 := rfl
@[simp] theorem State.setReg_a2_r1 (v : Dword) : (s.setReg .a2 v).r1 = s.r1 := rfl
@[simp] theorem State.setReg_a2_code (v : Dword) : (s.setReg .a2 v).code = s.code := rfl
@[simp] theorem State.setReg_a2_sticky (v : Dword) : (s.setReg .a2 v).sticky = s.sticky := rfl
@[simp] theorem State.setReg_a2_slots (v : Dword) : (s.setReg .a2 v).slots = s.slots := rfl
@[simp] theorem State.setReg_a2_cfg (v : Dword) : (s.setReg .a2 v).cfg = s.cfg := rfl
@[simp] theorem State.setReg_a2_pending (v : Dword) : (s.setReg .a2 v).pending = s.pending := rfl
@[simp] theorem State.setReg_a2_payload (v : Dword) : (s.setReg .a2 v).payload = s.payload := rfl
@[simp] theorem State.setReg_a2_allocOk (v : Dword) : (s.setReg .a2 v).allocOk = s.allocOk := rfl
@[simp] theorem State.setReg_a2_draws (v : Dword) : (s.setReg .a2 v).draws = s.draws := rfl
@[simp] theorem State.setReg_a2_replies (v : Dword) : (s.setReg .a2 v).replies = s.replies := rfl

@[simp] theorem State.setReg_r0_a0 (v : Dword) : (s.setReg .r0 v).a0 = s.a0 := rfl
@[simp] theorem State.setReg_r0_a1 (v : Dword) : (s.setReg .r0 v).a1 = s.a1 := rfl
@[simp] theorem State.setReg_r0_a2 (v : Dword) : (s.setReg .r0 v).a2 = s.a2 := rfl
@[simp] theorem State.setReg_r0_r0 (v : Dword) : (s.setReg .r0 v).r0 = v := rfl
@[simp] theorem State.setReg_r0_r1 (v : Dword) : (s.setReg .r0 v).r1 = s.r1 := rfl
@[simp] theorem State.setReg_r0_code (v : Dword) : (s.setReg .r0 v).code = s.code := rfl
@[simp] theorem State.setReg_r0_sticky (v : Dword) : (s.setReg .r0 v).sticky = s.sticky := rfl
@[simp] theorem State.setReg_r0_slots (v : Dword) : (s.setReg .r0 v).slots = s.slots := rfl
@[simp] theorem State.setReg_r0_cfg (v : Dword) : (s.setReg .r0 v).cfg = s.cfg := rfl
@[simp] theorem State.setReg_r0_pending (v : Dword) : (s.setReg .r0 v).pending = s.pending := rfl
@[simp] theorem State.setReg_r0_payload (v : Dword) : (s.setReg .r0 v).payload = s.payload := rfl
@[simp] theorem State.setReg_r0_allocOk (v : Dword) : (s.setReg .r0 v).allocOk = s.allocOk := rfl
@[simp] theorem State.setReg_r0_draws (v : Dword) : (s.setReg .r0 v).draws = s.draws := rfl
@[simp] theorem State.setReg_r0_replies (v : Dword) : (s.setReg .r0 v).replies = s.replies := rfl

@[simp] theorem State.setReg_r1_a0 (v : Dword) : (s.setReg .r1 v).a0 = s.a0 := rfl
@[simp] theorem State.setReg_r1_a1 (v : Dword) : (s.setReg .r1 v).a1 = s.a1 := rfl
@[simp] theorem State.setReg_r1_a2 (v : Dword) : (s.setReg .r1 v).a2 = s.a2 := rfl
@[simp] theorem State.setReg_r1_r0 (v : Dword) : (s.setReg .r1 v).r0 = s.r0 := rfl
@[simp] theorem State.setReg_r1_r1 (v : Dword) : (s.setReg .r1 v).r1 = v := rfl
@[simp] theorem State.setReg_r1_code (v : Dword) : (s.setReg .r1 v).code = s.code := rfl
@[simp] theorem State.setReg_r1_sticky (v : Dword) : (s.setReg .r1 v).sticky = s.sticky := rfl
@[simp] theorem State.setReg_r1_slots (v : Dword) : (s.setReg .r1 v).slots = s.slots := rfl
@[simp] theorem State.setReg_r1_cfg (v : Dword) : (s.setReg .r1 v).cfg = s.cfg := rfl
@[simp] theorem State.setReg_r1_pending (v : Dword) : (s.setReg .r1 v).pending = s.pending := rfl
@[simp] theorem State.setReg_r1_payload (v : Dword) : (s.setReg .r1 v).payload = s.payload := rfl
@[simp] theorem State.setReg_r1_allocOk (v : Dword) : (s.setReg .r1 v).allocOk = s.allocOk := rfl
@[simp] theorem State.setReg_r1_draws (v : Dword) : (s.setReg .r1 v).draws = s.draws := rfl
@[simp] theorem State.setReg_r1_replies (v : Dword) : (s.setReg .r1 v).replies = s.replies := rfl

@[simp] theorem State.setSlot_a0 (n : SlotField) (sl : Slot) : (s.setSlot n sl).a0 = s.a0 := rfl
@[simp] theorem State.setSlot_a1 (n : SlotField) (sl : Slot) : (s.setSlot n sl).a1 = s.a1 := rfl
@[simp] theorem State.setSlot_a2 (n : SlotField) (sl : Slot) : (s.setSlot n sl).a2 = s.a2 := rfl
@[simp] theorem State.setSlot_r0 (n : SlotField) (sl : Slot) : (s.setSlot n sl).r0 = s.r0 := rfl
@[simp] theorem State.setSlot_r1 (n : SlotField) (sl : Slot) : (s.setSlot n sl).r1 = s.r1 := rfl
@[simp] theorem State.setSlot_code (n : SlotField) (sl : Slot) : (s.setSlot n sl).code = s.code := rfl
@[simp] theorem State.setSlot_sticky (n : SlotField) (sl : Slot) : (s.setSlot n sl).sticky = s.sticky := rfl
@[simp] theorem State.setSlot_slots (n : SlotField) (sl : Slot) : (s.setSlot n sl).slots = s.slots.set n.toNat sl := rfl
@[simp] theorem State.setSlot_cfg (n : SlotField) (sl : Slot) : (s.setSlot n sl).cfg = s.cfg := rfl
@[simp] theorem State.setSlot_pending (n : SlotField) (sl : Slot) : (s.setSlot n sl).pending = s.pending := rfl
@[simp] theorem State.setSlot_payload (n : SlotField) (sl : Slot) : (s.setSlot n sl).payload = s.payload := rfl
@[simp] theorem State.setSlot_allocOk (n : SlotField) (sl : Slot) : (s.setSlot n sl).allocOk = s.allocOk := rfl
@[simp] theorem State.setSlot_draws (n : SlotField) (sl : Slot) : (s.setSlot n sl).draws = s.draws := rfl
@[simp] theorem State.setSlot_replies (n : SlotField) (sl : Slot) : (s.setSlot n sl).replies = s.replies := rfl

@[simp] theorem State.allocate_a0 (n : SlotField) (w h : BitVec 32) : (s.allocate n w h).a0 = s.a0 := rfl
@[simp] theorem State.allocate_a1 (n : SlotField) (w h : BitVec 32) : (s.allocate n w h).a1 = s.a1 := rfl
@[simp] theorem State.allocate_a2 (n : SlotField) (w h : BitVec 32) : (s.allocate n w h).a2 = s.a2 := rfl
@[simp] theorem State.allocate_r0 (n : SlotField) (w h : BitVec 32) : (s.allocate n w h).r0 = s.r0 := rfl
@[simp] theorem State.allocate_r1 (n : SlotField) (w h : BitVec 32) : (s.allocate n w h).r1 = s.r1 := rfl
@[simp] theorem State.allocate_code (n : SlotField) (w h : BitVec 32) : (s.allocate n w h).code = s.code := rfl
@[simp] theorem State.allocate_sticky (n : SlotField) (w h : BitVec 32) : (s.allocate n w h).sticky = s.sticky := rfl
@[simp] theorem State.allocate_slots (n : SlotField) (w h : BitVec 32) : (s.allocate n w h).slots = s.slots.set n.toNat (Slot.allocated w h s.draws) := rfl
@[simp] theorem State.allocate_cfg (n : SlotField) (w h : BitVec 32) : (s.allocate n w h).cfg = s.cfg := rfl
@[simp] theorem State.allocate_pending (n : SlotField) (w h : BitVec 32) : (s.allocate n w h).pending = s.pending := rfl
@[simp] theorem State.allocate_payload (n : SlotField) (w h : BitVec 32) : (s.allocate n w h).payload = s.payload := rfl
@[simp] theorem State.allocate_allocOk (n : SlotField) (w h : BitVec 32) : (s.allocate n w h).allocOk = s.allocOk := rfl
@[simp] theorem State.allocate_draws (n : SlotField) (w h : BitVec 32) : (s.allocate n w h).draws = s.draws + 1 := rfl
@[simp] theorem State.allocate_replies (n : SlotField) (w h : BitVec 32) : (s.allocate n w h).replies = s.replies := rfl

@[simp] theorem State.returnId_a0 (id : Ident) : (s.returnId id).a0 = s.a0 := rfl
@[simp] theorem State.returnId_a1 (id : Ident) : (s.returnId id).a1 = s.a1 := rfl
@[simp] theorem State.returnId_a2 (id : Ident) : (s.returnId id).a2 = s.a2 := rfl
@[simp] theorem State.returnId_r0 (id : Ident) : (s.returnId id).r0 = id.extractLsb' 64 64 := rfl
@[simp] theorem State.returnId_r1 (id : Ident) : (s.returnId id).r1 = id.extractLsb' 0 64 := rfl
@[simp] theorem State.returnId_code (id : Ident) : (s.returnId id).code = s.code := rfl
@[simp] theorem State.returnId_sticky (id : Ident) : (s.returnId id).sticky = s.sticky := rfl
@[simp] theorem State.returnId_slots (id : Ident) : (s.returnId id).slots = s.slots := rfl
@[simp] theorem State.returnId_cfg (id : Ident) : (s.returnId id).cfg = s.cfg := rfl
@[simp] theorem State.returnId_pending (id : Ident) : (s.returnId id).pending = s.pending := rfl
@[simp] theorem State.returnId_payload (id : Ident) : (s.returnId id).payload = s.payload := rfl
@[simp] theorem State.returnId_allocOk (id : Ident) : (s.returnId id).allocOk = s.allocOk := rfl
@[simp] theorem State.returnId_draws (id : Ident) : (s.returnId id).draws = s.draws := rfl
@[simp] theorem State.returnId_replies (id : Ident) : (s.returnId id).replies = s.replies := rfl

@[simp] theorem State.accept_a0 (p : List Byte) (ok : Bool) : (s.accept p ok).a0 = s.a0 := rfl
@[simp] theorem State.accept_a1 (p : List Byte) (ok : Bool) : (s.accept p ok).a1 = s.a1 := rfl
@[simp] theorem State.accept_a2 (p : List Byte) (ok : Bool) : (s.accept p ok).a2 = s.a2 := rfl
@[simp] theorem State.accept_r0 (p : List Byte) (ok : Bool) : (s.accept p ok).r0 = s.r0 := rfl
@[simp] theorem State.accept_r1 (p : List Byte) (ok : Bool) : (s.accept p ok).r1 = s.r1 := rfl
@[simp] theorem State.accept_code (p : List Byte) (ok : Bool) : (s.accept p ok).code = s.code := rfl
@[simp] theorem State.accept_sticky (p : List Byte) (ok : Bool) : (s.accept p ok).sticky = s.sticky := rfl
@[simp] theorem State.accept_slots (p : List Byte) (ok : Bool) : (s.accept p ok).slots = s.slots := rfl
@[simp] theorem State.accept_cfg (p : List Byte) (ok : Bool) : (s.accept p ok).cfg = s.cfg := rfl
@[simp] theorem State.accept_pending (p : List Byte) (ok : Bool) : (s.accept p ok).pending = s.pending := rfl
@[simp] theorem State.accept_payload (p : List Byte) (ok : Bool) : (s.accept p ok).payload = p := rfl
@[simp] theorem State.accept_allocOk (p : List Byte) (ok : Bool) : (s.accept p ok).allocOk = ok := rfl
@[simp] theorem State.accept_draws (p : List Byte) (ok : Bool) : (s.accept p ok).draws = s.draws := rfl
@[simp] theorem State.accept_replies (p : List Byte) (ok : Bool) : (s.accept p ok).replies = s.replies := rfl

@[simp] theorem State.deliver_a0 (v : Dword) : (s.deliver v).a0 = s.a0 := rfl
@[simp] theorem State.deliver_a1 (v : Dword) : (s.deliver v).a1 = s.a1 := rfl
@[simp] theorem State.deliver_a2 (v : Dword) : (s.deliver v).a2 = s.a2 := rfl
@[simp] theorem State.deliver_r0 (v : Dword) : (s.deliver v).r0 = s.r0 := rfl
@[simp] theorem State.deliver_r1 (v : Dword) : (s.deliver v).r1 = s.r1 := rfl
@[simp] theorem State.deliver_code (v : Dword) : (s.deliver v).code = s.code := rfl
@[simp] theorem State.deliver_sticky (v : Dword) : (s.deliver v).sticky = s.sticky := rfl
@[simp] theorem State.deliver_slots (v : Dword) : (s.deliver v).slots = s.slots := rfl
@[simp] theorem State.deliver_cfg (v : Dword) : (s.deliver v).cfg = s.cfg := rfl
@[simp] theorem State.deliver_pending (v : Dword) : (s.deliver v).pending = s.pending := rfl
@[simp] theorem State.deliver_payload (v : Dword) : (s.deliver v).payload = s.payload := rfl
@[simp] theorem State.deliver_allocOk (v : Dword) : (s.deliver v).allocOk = s.allocOk := rfl
@[simp] theorem State.deliver_draws (v : Dword) : (s.deliver v).draws = s.draws := rfl
@[simp] theorem State.deliver_replies (v : Dword) : (s.deliver v).replies = .value v :: s.replies := rfl

@[simp] theorem State.applyReset_a0  : (s.applyReset).a0 = 0 := rfl
@[simp] theorem State.applyReset_a1  : (s.applyReset).a1 = 0 := rfl
@[simp] theorem State.applyReset_a2  : (s.applyReset).a2 = 0 := rfl
@[simp] theorem State.applyReset_r0  : (s.applyReset).r0 = 0 := rfl
@[simp] theorem State.applyReset_r1  : (s.applyReset).r1 = 0 := rfl
@[simp] theorem State.applyReset_code  : (s.applyReset).code = .ok := rfl
@[simp] theorem State.applyReset_sticky  : (s.applyReset).sticky = false := rfl
@[simp] theorem State.applyReset_slots  : (s.applyReset).slots = List.replicate s.cfg.numSlots Slot.unused := rfl
@[simp] theorem State.applyReset_cfg  : (s.applyReset).cfg = s.cfg := rfl
@[simp] theorem State.applyReset_pending  : (s.applyReset).pending = s.pending := rfl
@[simp] theorem State.applyReset_payload  : (s.applyReset).payload = [] := rfl
@[simp] theorem State.applyReset_allocOk  : (s.applyReset).allocOk = s.allocOk := rfl
@[simp] theorem State.applyReset_draws  : (s.applyReset).draws = s.draws := rfl
@[simp] theorem State.applyReset_replies  : (s.applyReset).replies = s.replies := rfl

@[simp] theorem State.resetWith_a0 (c : Config) : (State.resetWith c).a0 = 0 := rfl
@[simp] theorem State.resetWith_a1 (c : Config) : (State.resetWith c).a1 = 0 := rfl
@[simp] theorem State.resetWith_a2 (c : Config) : (State.resetWith c).a2 = 0 := rfl
@[simp] theorem State.resetWith_r0 (c : Config) : (State.resetWith c).r0 = 0 := rfl
@[simp] theorem State.resetWith_r1 (c : Config) : (State.resetWith c).r1 = 0 := rfl
@[simp] theorem State.resetWith_code (c : Config) : (State.resetWith c).code = .ok := rfl
@[simp] theorem State.resetWith_sticky (c : Config) : (State.resetWith c).sticky = false := rfl
@[simp] theorem State.resetWith_slots (c : Config) : (State.resetWith c).slots = List.replicate c.numSlots Slot.unused := rfl
@[simp] theorem State.resetWith_cfg (c : Config) : (State.resetWith c).cfg = c := rfl
@[simp] theorem State.resetWith_pending (c : Config) : (State.resetWith c).pending = [] := rfl
@[simp] theorem State.resetWith_payload (c : Config) : (State.resetWith c).payload = [] := rfl
@[simp] theorem State.resetWith_replies (c : Config) : (State.resetWith c).replies = [] := rfl

@[simp] theorem State.reg_a0 : s.reg .a0 = s.a0 := rfl
@[simp] theorem State.reg_a1 : s.reg .a1 = s.a1 := rfl
@[simp] theorem State.reg_a2 : s.reg .a2 = s.a2 := rfl
@[simp] theorem State.reg_r0 : s.reg .r0 = s.r0 := rfl
@[simp] theorem State.reg_r1 : s.reg .r1 = s.r1 := rfl

/-! The slot table as read through `State.slot`: it depends on the field `slots` alone. -/

theorem State.slot_congr {s t : State} (h : t.slots = s.slots) (n : SlotField) : t.slot n = s.slot n := by
  simp [State.slot, h]

@[simp] theorem State.slot_raise (c : Code) (n : SlotField) : (s.raise c).slot n = s.slot n := rfl
@[simp] theorem State.slot_succeed (out : List Byte) (n : SlotField) : (s.succeed out).slot n = s.slot n := rfl
@[simp] theorem State.slot_setReg (r : DataReg) (v : Dword) (n : SlotField) : (s.setReg r v).slot n = s.slot n := by
  cases r <;> rfl
@[simp] theorem State.slot_returnId (id : Ident) (n : SlotField) : (s.returnId id).slot n = s.slot n := rfl
@[simp] theorem State.slot_accept (p : List Byte) (ok : Bool) (n : SlotField) : (s.accept p ok).slot n = s.slot n := rfl
@[simp] theorem State.slot_deliver (v : Dword) (n : SlotField) : (s.deliver v).slot n = s.slot n := rfl

/-- Reading the entry just set, where the table has it. -/
@[simp] theorem State.slot_setSlot_same (n : SlotField) (sl : Slot) (h : n.toNat < s.slots.length) :
    (s.setSlot n sl).slot n = sl := by
  simp [State.slot, State.setSlot, h]

/-- Setting one entry leaves every other alone. -/
@[simp] theorem State.slot_setSlot_other {m n : SlotField} (sl : Slot) (h : m ≠ n) :
    (s.setSlot n sl).slot m = s.slot m := by
  have : n.toNat ≠ m.toNat := fun e => h (BitVec.eq_of_toNat_eq e.symm)
  simp [State.slot, State.setSlot, this]

/-- The entry just allocated, where the table has it. -/
@[simp] theorem State.slot_allocate_same (n : SlotField) (w h : BitVec 32) (hn : n.toNat < s.slots.length) :
    (s.allocate n w h).slot n = Slot.allocated w h s.draws :=
  State.slot_setSlot_same s n _ hn

/-- Allocating one entry leaves every other alone. -/
@[simp] theorem State.slot_allocate_other {m n : SlotField} (w h : BitVec 32) (hmn : m ≠ n) :
    (s.allocate n w h).slot m = s.slot m :=
  State.slot_setSlot_other s _ hmn

/-- Every entry of a table of unused slots is unused. -/
@[simp] theorem State.slot_resetWith (c : Config) (n : SlotField) : (State.resetWith c).slot n = Slot.unused := by
  simp only [State.slot, State.resetWith_slots, List.getD_eq_getElem?_getD, List.getElem?_replicate]
  split <;> rfl

@[simp] theorem State.slot_applyReset (n : SlotField) : s.applyReset.slot n = Slot.unused :=
  State.slot_resetWith s.cfg n

end Sys2Proof.Machine
end

