-- ==== Sys2Proof/Laws/Slots.lean ====
section
/-! SUPPORT. The slots the commands leave are well formed (10_state.md R32 to R34). -/

namespace Sys2Proof.Machine

/-- A slot with no buffer is well formed. -/
theorem Slot.wf_of_gone {sl : Slot} (c : Config) (d : Nat) (hl : ¬ sl.isLive) (h : sl.w = 0 ∧ sl.h = 0 ∧ sl.mem = []) : sl.Wf c d where
  canonical := h.2.2 ▸ Memory.wf_nil
  dimensions hn := absurd hn hl
  fits hn := absurd hn hl
  inside hn := absurd hn hl
  drawn hn := absurd hn hl
  gone _ := h

theorem Slot.unused_wf (c : Config) (d : Nat) : Slot.unused.Wf c d := Slot.wf_of_gone c d (by decide) ⟨rfl, rfl, rfl⟩

theorem Slot.released_wf (c : Config) (d : Nat) : Slot.released.Wf c d := Slot.wf_of_gone c d (by decide) ⟨rfl, rfl, rfl⟩

/-- What PBCREATE's tests leave to be allocated is well formed. -/
theorem Slot.allocated_wf {c : Config} {w h : BitVec 32} {d : Nat} (hw : 0 ≤ w.toInt) (hh : 0 ≤ h.toInt)
    (hs : w.toInt * h.toInt * 4 ≤ c.maxBytes) : (Slot.allocated w h d).Wf c (d + 1) where
  canonical := Memory.wf_nil
  dimensions _ := ⟨hw, hh⟩
  fits _ := hs
  inside _ := by simp [Slot.allocated]
  drawn _ := Nat.lt_succ_self d
  gone h := absurd rfl h

/-- Drawing further streams keeps a slot well formed. -/
theorem Slot.Wf.mono {c : Config} {d d' : Nat} {sl : Slot} (h : sl.Wf c d) (hd : d ≤ d') : sl.Wf c d' :=
  { h with drawn := fun hl => Nat.lt_of_lt_of_le (h.drawn hl) hd }

/-- Writing bytes inside a live slot's memory keeps it well formed. -/
theorem Slot.Wf.writeBytes {c : Config} {d : Nat} {sl : Slot} (h : sl.Wf c d) (hl : sl.isLive) {a : Nat} {bs : List Byte}
    (hb : ((a + bs.length : Nat) : Int) ≤ sl.size) : (sl.writeBytes a bs).Wf c d where
  canonical := Memory.writeList_wf _ _ h.canonical
  dimensions _ := h.dimensions hl
  fits _ := h.fits hl
  inside _ cell hc := by
    change (cell.1 : Int) < sl.size
    rcases Memory.mem_writeList hc with hc | hc
    · omega
    · exact h.inside hl cell hc
  drawn _ := h.drawn hl
  gone hn := absurd hl hn

/-- PBALPHA's loop over a live slot's pixels keeps it well formed. -/
theorem Slot.Wf.alphaPixels {c : Config} {d : Nat} {sl : Slot} (h : sl.Wf c d) (hl : sl.isLive) (e : Endian) :
    (sl.alphaPixels e sl.count.toNat).Wf c d := by
  obtain ⟨hst, hw, hh, hf⟩ := sl.alphaPixels_frame e sl.count.toNat
  obtain ⟨hwf, hmem⟩ := sl.alphaPixels_mem e sl.count.toNat h.canonical
  have hsz : (sl.alphaPixels e sl.count.toNat).size = sl.size := by simp only [Slot.size, Slot.width, Slot.height, hw, hh]
  have hlive : (sl.alphaPixels e sl.count.toNat).isLive := hst.trans hl
  exact
    { canonical := hwf
      dimensions := fun _ => by simpa only [Slot.width, Slot.height, hw, hh] using h.dimensions hl
      fits := fun _ => hsz ▸ h.fits hl
      inside := fun _ cell hc => by
        rw [hsz]
        rcases hmem cell hc with hc | hc
        · have : sl.size = sl.count * 4 := rfl
          omega
        · exact h.inside hl cell hc
      drawn := fun _ => hf ▸ h.drawn hl
      gone := fun hn => absurd hlive hn }

/-- An in-bounds coordinate of a slot with dimensions at least 0 names a pixel whose word lies inside the memory (20_memory.md R57). -/
theorem Slot.pixelIndex_inside {sl : Slot} {x y : Int} {i : Nat} (h : sl.pixelIndex x y = some i) :
    ((4 * i + 4 : Nat) : Int) ≤ sl.size ∧ (i : Int) = x + y * sl.width ∧ 0 ≤ x ∧ x < sl.width ∧ 0 ≤ y ∧ y < sl.height := by
  unfold Slot.pixelIndex at h
  split at h
  · cases h
  · rename_i hb
    push Not at hb
    obtain ⟨hx, hxw, hy, hyh⟩ := hb
    have hi : (i : Int) = x + y * sl.width := by
      have hmul : 0 ≤ y * sl.width := Int.mul_nonneg hy (by omega)
      have : i = (x + y * sl.width).toNat := (Option.some.inj h).symm
      omega
    refine ⟨?_, hi, hx, hxw, hy, hyh⟩
    have hle : (y + 1) * sl.width ≤ sl.height * sl.width := Int.mul_le_mul_of_nonneg_right (by omega) (by omega)
    have hsz : sl.size = sl.height * sl.width * 4 := by simp only [Slot.size]; ring
    have hexp : (y + 1) * sl.width = y * sl.width + sl.width := by ring
    omega

/-- Distinct in-bounds coordinates name distinct pixels. -/
theorem Slot.pixelIndex_injective {sl : Slot} {x y x' y' : Int} {i : Nat} (h : sl.pixelIndex x y = some i)
    (h' : sl.pixelIndex x' y' = some i) : x = x' ∧ y = y' := by
  obtain ⟨-, hi, hx, hxw, -, -⟩ := Slot.pixelIndex_inside h
  obtain ⟨-, hi', hx', hxw', -, -⟩ := Slot.pixelIndex_inside h'
  have hy : y = y' := by
    have h1 : (x + y * sl.width) / sl.width = y := by
      rw [Int.add_mul_ediv_right _ _ (by omega), Int.ediv_eq_zero_of_lt hx hxw, zero_add]
    have h2 : (x' + y' * sl.width) / sl.width = y' := by
      rw [Int.add_mul_ediv_right _ _ (by omega), Int.ediv_eq_zero_of_lt hx' hxw', zero_add]
    rw [← h1, ← hi, hi', h2]
  subst hy
  exact ⟨by omega, rfl⟩

end Sys2Proof.Machine
end

