-- ==== Sys2Proof/Laws/Commands.lean ====
section
/-! SUPPORT. What a command can do, said once: its effect is an error report, or a success report over a state whose frame is known. -/

namespace Sys2Proof.Machine

/-- The pseudocode effect of each command, without the tests of 30_encoding.md R78. -/
def effectOf (i : Instr) (s : State) : State :=
  match i with
  | .fourcc => fourccEffect s
  | .mkid => mkidEffect s
  | .mkidfcc => mkidfccEffect s
  | .pack2 => pack2Effect s
  | .unpack2 => unpack2Effect s
  | .t2ms => t2msEffect s
  | .ms2t => ms2tEffect s
  | .idfor => idforEffect s
  | .pbcreate n => pbcreateEffect n s
  | .pbget n => pbgetEffect n s
  | .pbset n => pbsetEffect n s
  | .pbalpha n => pbalphaEffect n s
  | .pbfill n => pbfillEffect n s
  | .pbread n => pbreadEffect n s
  | .pbfree n => pbfreeEffect n s
  | .pbdim n => pbdimEffect n s
  | .pbsize n => pbsizeEffect n s
  | .pbstride n => pbstrideEffect n s

/-- Every command is the tests of R78 and then its effect. -/
theorem exec_eq (i : Instr) (s : State) : exec i s = runCommand i s (effectOf i s) := by cases i <;> rfl

/-- The one next state of a command. -/
theorem exec_next (i : Instr) (s : State) :
    exec i s = .next (if commandLegal i s then effectOf i s else s.raise .badCommand) := exec_eq i s

/-- A command whose tests pass. -/
theorem exec_legal {i : Instr} {s : State} (h : commandLegal i s = true) : exec i s = .next (effectOf i s) := by
  rw [exec_next, if_pos h]

/-- A command one of whose tests fails. -/
theorem exec_illegal {i : Instr} {s : State} (h : commandLegal i s = false) : exec i s = .next (s.raise .badCommand) := by
  rw [exec_next, h]; rfl

/-- A BCU command's tests: no payload. -/
theorem commandLegal_of_bcu {i : Instr} {s : State} (hi : i.slot? = none) (hp : s.payload = []) : commandLegal i s = true := by
  simp [commandLegal, Instr.wellFormed, hi, hp]

/-- A PBU command's tests: its slot exists and there is no payload, or the command is PBFILL. -/
theorem commandLegal_of_pbu {i : Instr} {s : State} {n : SlotField} (hi : i.slot? = some n) (hn : n.toNat < s.cfg.numSlots)
    (hp : i.takesPayload = true ∨ s.payload = []) : commandLegal i s = true := by
  rcases hp with hp | hp <;> simp [commandLegal, Instr.wellFormed, hi, hn, hp]

/-- What stands between the start of a command and its success report: `u` is `s` with the command's results written. -/
structure Written (i : Instr) (s u : State) : Prop where
  a0 : u.a0 = s.a0
  a1 : u.a1 = s.a1
  a2 : u.a2 = s.a2
  r0 : writesR0 i = false → u.r0 = s.r0
  r1 : writesR1 i = false → u.r1 = s.r1
  sticky : u.sticky = s.sticky
  cfg : u.cfg = s.cfg
  pending : u.pending = s.pending
  allocOk : u.allocOk = s.allocOk
  replies : u.replies = s.replies
  slots : u.slots = s.slots ∨ changesSlot i = true ∧ ∃ n sl, i.slot? = some n ∧ u.slots = s.slots.set n.toNat sl

theorem Written.refl (i : Instr) (s : State) : Written i s s where
  a0 := rfl
  a1 := rfl
  a2 := rfl
  r0 _ := rfl
  r1 _ := rfl
  sticky := rfl
  cfg := rfl
  pending := rfl
  allocOk := rfl
  replies := rfl
  slots := .inl rfl

theorem Written.setR0 {i : Instr} {s u : State} (h : Written i s u) (hi : writesR0 i = true) (v : Dword) :
    Written i s (u.setReg .r0 v) :=
  { h with r0 := fun hn => by simp [hi] at hn }

theorem Written.setR1 {i : Instr} {s u : State} (h : Written i s u) (hi : writesR1 i = true) (v : Dword) :
    Written i s (u.setReg .r1 v) :=
  { h with r1 := fun hn => by simp [hi] at hn }

theorem Written.setSlot {i : Instr} {s : State} {n : SlotField} (hi : i.slot? = some n) (hc : changesSlot i = true) (sl : Slot) :
    Written i s (s.setSlot n sl) :=
  { Written.refl i s with slots := .inr ⟨hc, n, sl, hi, rfl⟩ }

/-- The two ends of a command: it raised an error, or it succeeded over its written results; output is PBREAD's alone. -/
def Ends (i : Instr) (s t : State) : Prop :=
  (∃ c, c ≠ .ok ∧ t = s.raise c) ∨
    ∃ u out, t = u.succeed out ∧ Written i s u ∧ ((∀ n, i ≠ .pbread n) → out = [])

theorem Ends.raise (i : Instr) (s : State) {c : Code} (h : c ≠ .ok) : Ends i s (s.raise c) := .inl ⟨c, h, rfl⟩

theorem Ends.succeed {i : Instr} {s u : State} (h : Written i s u) : Ends i s (u.succeed []) :=
  .inr ⟨u, [], rfl, h, fun _ => rfl⟩

theorem Ends.onLive {i : Instr} {s : State} {n : SlotField} {t : State} (h : (s.slot n).isLive → Ends i s t) :
    Ends i s (s.onLive n t) := by
  unfold State.onLive
  split
  · exact h ‹_›
  · exact Ends.raise i s (by decide)

/-- Every effect ends in one of the two ways. -/
theorem effectOf_ends (i : Instr) (s : State) : Ends i s (effectOf i s) := by
  have refl := Written.refl i s
  cases i with
  | fourcc =>
    simp only [effectOf, fourccEffect]
    split
    · exact Ends.raise _ s (by decide)
    · exact Ends.succeed (refl.setR0 rfl _)
  | mkid => exact Ends.succeed ((refl.setR0 rfl _).setR1 rfl _)
  | mkidfcc =>
    simp only [effectOf, mkidfccEffect]
    split
    · exact Ends.raise _ s (by decide)
    · exact Ends.succeed ((refl.setR0 rfl _).setR1 rfl _)
  | pack2 => exact Ends.succeed (refl.setR0 rfl _)
  | unpack2 => exact Ends.succeed ((refl.setR0 rfl _).setR1 rfl _)
  | t2ms => exact Ends.succeed (refl.setR0 rfl _)
  | ms2t =>
    simp only [effectOf, ms2tEffect]
    split
    · exact Ends.raise _ s (by decide)
    · exact Ends.succeed (refl.setR0 rfl _)
  | idfor =>
    simp only [effectOf, idforEffect]
    split
    · exact Ends.raise _ s (by decide)
    · exact Ends.succeed ((refl.setR0 rfl _).setR1 rfl _)
  | pbcreate n =>
    simp only [effectOf, pbcreateEffect]
    split
    · exact Ends.raise _ s (by decide)
    split
    · exact Ends.raise _ s (by decide)
    split
    · exact Ends.raise _ s (by decide)
    split
    · exact Ends.raise _ s (by decide)
    · exact Ends.succeed { refl with slots := .inr ⟨rfl, n, _, rfl, rfl⟩ }
  | pbget n =>
    refine Ends.onLive fun _ => ?_
    split
    · exact Ends.raise _ s (by decide)
    · exact Ends.succeed (refl.setR0 rfl _)
  | pbset n =>
    refine Ends.onLive fun _ => ?_
    split
    · exact Ends.raise _ s (by decide)
    · exact Ends.succeed (Written.setSlot rfl rfl _)
  | pbalpha n => exact Ends.onLive fun _ => Ends.succeed (Written.setSlot rfl rfl _)
  | pbfill n =>
    refine Ends.onLive fun _ => ?_
    split
    · exact Ends.raise _ s (by decide)
    · exact Ends.succeed (Written.setSlot rfl rfl _)
  | pbread n => exact Ends.onLive fun _ => .inr ⟨s, _, rfl, refl, fun h => absurd rfl (h n)⟩
  | pbfree n =>
    simp only [effectOf, pbfreeEffect]
    split
    · exact Ends.succeed (Written.setSlot rfl rfl _)
    · exact Ends.succeed refl
  | pbdim n => exact Ends.succeed ((refl.setR0 rfl _).setR1 rfl _)
  | pbsize n => exact Ends.succeed ((refl.setR0 rfl _).setR1 rfl _)
  | pbstride n => exact Ends.succeed (refl.setR0 rfl _)

/-- Everything a command can do: one next state, ending in one of the two ways. -/
theorem exec_ends (i : Instr) (s : State) : ∃ t, exec i s = .next t ∧ Ends i s t := by
  refine ⟨_, exec_next i s, ?_⟩
  split
  · exact effectOf_ends i s
  · exact Ends.raise i s (by decide)

end Sys2Proof.Machine
end

