-- ==== Sys2Proof/Laws/PerInstr.lean ====
section
/-! SUPPORT. Per-command facts about the syntax and its encoding (LAWS.json names the family). -/

namespace Sys2Proof.Laws.WordFields

/-- The three fields of a command's word are its opcode, its slot and zero (30_encoding.md R70), and the decoder takes it. -/
def Statement (i : Instr) : Prop :=
  opcodeField (encode i) = opcodeOf i ∧ slotField (encode i) = slotBitsOf i ∧ rsvdField (encode i) = 0 ∧
    (decode (encode i)).isSome = true

/-- The fields of a word put together from its fields. -/
theorem fields_append (o : BitVec 8) (n : SlotField) :
    opcodeField (0#16 ++ n ++ o : Word) = o ∧ slotField (0#16 ++ n ++ o : Word) = n ∧ rsvdField (0#16 ++ n ++ o : Word) = 0 := by
  refine ⟨?_, ?_, ?_⟩ <;> apply BitVec.eq_of_getLsbD_eq <;> intro k hk <;>
    simp only [opcodeField, slotField, rsvdField, BitVec.getLsbD_extractLsb', BitVec.getLsbD_append, hk, decide_true,
      Bool.true_and, BitVec.getLsbD_zero] <;>
    interval_cases k <;> simp

/-- The statement needs only that the decoder takes the word's opcode. -/
theorem of_isSome {i : Instr} (h : (decode (encode i)).isSome = true) : Statement i :=
  have ⟨ho, hn, hr⟩ := fields_append (opcodeOf i) (slotBitsOf i)
  ⟨ho, hn, hr, h⟩

/-- A PBU opcode is decoded whatever its slot. -/
theorem decode_pbu {o : BitVec 8} (n : SlotField) (hb : bcuOfOpcode o = none) :
    decode (0#16 ++ n ++ o : Word) = pbuOfOpcode o n := by
  obtain ⟨ho, hn, hr⟩ := fields_append o n
  simp only [decode, hr, ne_eq, not_true_eq_false, if_false, ho, hb, hn]

theorem fourcc : Statement .fourcc := of_isSome (by decide)
theorem mkid : Statement .mkid := of_isSome (by decide)
theorem mkidfcc : Statement .mkidfcc := of_isSome (by decide)
theorem pack2 : Statement .pack2 := of_isSome (by decide)
theorem unpack2 : Statement .unpack2 := of_isSome (by decide)
theorem t2ms : Statement .t2ms := of_isSome (by decide)
theorem ms2t : Statement .ms2t := of_isSome (by decide)
theorem idfor : Statement .idfor := of_isSome (by decide)
theorem pbcreate (n : SlotField) : Statement (.pbcreate n) :=
  of_isSome (by rw [show encode (.pbcreate n) = 0#16 ++ n ++ 0x10#8 from rfl, decode_pbu n (by decide)]; rfl)
theorem pbget (n : SlotField) : Statement (.pbget n) :=
  of_isSome (by rw [show encode (.pbget n) = 0#16 ++ n ++ 0x11#8 from rfl, decode_pbu n (by decide)]; rfl)
theorem pbset (n : SlotField) : Statement (.pbset n) :=
  of_isSome (by rw [show encode (.pbset n) = 0#16 ++ n ++ 0x12#8 from rfl, decode_pbu n (by decide)]; rfl)
theorem pbalpha (n : SlotField) : Statement (.pbalpha n) :=
  of_isSome (by rw [show encode (.pbalpha n) = 0#16 ++ n ++ 0x13#8 from rfl, decode_pbu n (by decide)]; rfl)
theorem pbfill (n : SlotField) : Statement (.pbfill n) :=
  of_isSome (by rw [show encode (.pbfill n) = 0#16 ++ n ++ 0x14#8 from rfl, decode_pbu n (by decide)]; rfl)
theorem pbread (n : SlotField) : Statement (.pbread n) :=
  of_isSome (by rw [show encode (.pbread n) = 0#16 ++ n ++ 0x15#8 from rfl, decode_pbu n (by decide)]; rfl)
theorem pbfree (n : SlotField) : Statement (.pbfree n) :=
  of_isSome (by rw [show encode (.pbfree n) = 0#16 ++ n ++ 0x16#8 from rfl, decode_pbu n (by decide)]; rfl)
theorem pbdim (n : SlotField) : Statement (.pbdim n) :=
  of_isSome (by rw [show encode (.pbdim n) = 0#16 ++ n ++ 0x17#8 from rfl, decode_pbu n (by decide)]; rfl)
theorem pbsize (n : SlotField) : Statement (.pbsize n) :=
  of_isSome (by rw [show encode (.pbsize n) = 0#16 ++ n ++ 0x18#8 from rfl, decode_pbu n (by decide)]; rfl)
theorem pbstride (n : SlotField) : Statement (.pbstride n) :=
  of_isSome (by rw [show encode (.pbstride n) = 0#16 ++ n ++ 0x19#8 from rfl, decode_pbu n (by decide)]; rfl)

end Sys2Proof.Laws.WordFields
end

