-- ==== Sys2Proof/Laws/Step.lean ====
section
/-! SUPPORT. What one step can do, said once: every invariant of the machine is a case analysis over it. -/

namespace Sys2Proof.Machine

/-- A command that answers a next state ends in one of the two ways. -/
theorem ends_of_exec {i : Instr} {s t : State} (h : exec i s = .next t) : Ends i s t := by
  obtain ⟨t', ht, he⟩ := exec_ends i s
  rw [ht] at h
  cases h
  exact he

/-- A host write off CMD changes one operand register or nothing. -/
theorem writeWindow_cases (off : Nat) (v : Dword) (s : State) :
    writeWindow off v s = s ∨ off = 0x10 ∧ writeWindow off v s = { s with a0 := v } ∨
      off = 0x18 ∧ writeWindow off v s = { s with a1 := v } ∨ off = 0x20 ∧ writeWindow off v s = { s with a2 := v } := by
  unfold writeWindow
  split
  · exact .inr (.inl ⟨‹_›, rfl⟩)
  split
  · exact .inr (.inr (.inl ⟨‹_›, rfl⟩))
  split
  · exact .inr (.inr (.inr ⟨‹_›, rfl⟩))
  · exact .inl rfl

/-- The ways a step can go, by the host's next action. -/
inductive StepCase (s t : State) : Prop where
  | idle (hp : s.pending = []) (ht : t = s)
  | reset (rest : List HostAction) (hp : s.pending = .reset :: rest)
      (ht : t = ({ s with pending := rest } : State).applyReset)
  | read (off : Nat) (rest : List HostAction) (hp : s.pending = .read off :: rest)
      (ht : t = ({ s with pending := rest } : State).deliver (readWindow off { s with pending := rest }))
  | write (off : Nat) (v : Dword) (p : List Byte) (ok : Bool) (rest : List HostAction)
      (hp : s.pending = .write off v p ok :: rest) (h0 : off ≠ 0) (ht : t = writeWindow off v { s with pending := rest })
  | bad (v : Dword) (p : List Byte) (ok : Bool) (rest : List HostAction) (hp : s.pending = .write 0 v p ok :: rest)
      (hd : decode (v.extractLsb' 0 32) = none)
      (ht : t = (({ s with pending := rest } : State).accept p ok).raise .badCommand)
  | command (v : Dword) (p : List Byte) (ok : Bool) (rest : List HostAction) (i : Instr)
      (hp : s.pending = .write 0 v p ok :: rest) (hd : decode (v.extractLsb' 0 32) = some i)
      (ht : exec i (({ s with pending := rest } : State).accept p ok) = .next t)

/-- A step on a write of CMD. -/
theorem step_of_command {s : State} {v : Dword} {p : List Byte} {ok : Bool} {rest : List HostAction}
    (hp : s.pending = .write 0 v p ok :: rest) :
    step s = issue (v.extractLsb' 0 32) (({ s with pending := rest } : State).accept p ok) := by
  unfold step
  rw [hp]
  rfl

/-- A step on any other write. -/
theorem step_of_write {s : State} {off : Nat} {v : Dword} {p : List Byte} {ok : Bool} {rest : List HostAction}
    (hp : s.pending = .write off v p ok :: rest) (h0 : off ≠ 0) :
    step s = .next (writeWindow off v { s with pending := rest }) := by
  unfold step
  rw [hp]
  exact if_neg h0

/-- A step on a read. -/
theorem step_of_read {s : State} {off : Nat} {rest : List HostAction} (hp : s.pending = .read off :: rest) :
    step s = .next (({ s with pending := rest } : State).deliver (readWindow off { s with pending := rest })) := by
  unfold step
  rw [hp]
  rfl

/-- A step on reset. -/
theorem step_of_reset {s : State} {rest : List HostAction} (hp : s.pending = .reset :: rest) :
    step s = .next ({ s with pending := rest } : State).applyReset := by
  unfold step
  rw [hp]
  rfl

/-- Everything a step can do. -/
theorem step_cases {s t : State} (h : step s = .next t) : StepCase s t := by
  rcases hp : s.pending with _ | ⟨a, rest⟩
  · unfold step at h
    rw [hp] at h
    cases h
    exact .idle hp rfl
  · cases a with
    | reset => rw [step_of_reset hp] at h; cases h; exact .reset rest hp rfl
    | read off => rw [step_of_read hp] at h; cases h; exact .read off rest hp rfl
    | write off v p ok =>
      by_cases h0 : off = 0
      · subst h0
        rw [step_of_command hp] at h
        unfold issue at h
        split at h
        · rename_i hd; cases h; exact .bad v p ok rest hp hd rfl
        · rename_i i hd; exact .command v p ok rest i hp hd h
      · rw [step_of_write hp h0] at h; cases h; exact .write off v p ok rest hp h0 rfl

end Sys2Proof.Machine
end

