-- ==== Sys2Proof/Tests/Slice0.lean ====
section
/-! SUPPORT. Tests of one step on small states, and a witness of every statement's hypotheses. Expected results come from the
spec's own examples and vectors (95_test_vectors.md sections 1 and 2), named in each docstring, or are written out from the encoding
of 30_encoding.md R70 and R76. -/

namespace Sys2Proof.Tests

open Sys2Proof.Machine Sys2Proof.Claim

/-! ### States and projections -/

/-- A block of four slots after reset, with the registry of 95_test_vectors.md section 2.5. -/
def block (e : Endian) : State :=
  State.resetWith
    { endian := e, numSlots := 4, maxBytes := 2147483647,
      registry := [(0x07, 0x3231564E00000010800000AA00389B71), (0x09, 0x00112233445566778899AABBCCDDEEFF)] }

/-- A state with its operand registers set. -/
def ops (s : State) (x y z : Dword) : State := { s with a0 := x, a1 := y, a2 := z }

/-- A state with a payload on the port. -/
def carrying (s : State) (p : List Byte) : State := { s with payload := p }

/-- A state whose host asks one thing next. -/
def asked (s : State) (a : HostAction) : State := { s with pending := [a] }

/-- The bytes 00 to 0F. -/
def sixteen : List Byte := [0x00, 0x01, 0x02, 0x03, 0x04, 0x05, 0x06, 0x07, 0x08, 0x09, 0x0A, 0x0B, 0x0C, 0x0D, 0x0E, 0x0F]

/-- A live 2 by 2 buffer filled with the bytes 00 to 0F. -/
def filledSlot : Slot where
  state := .live
  w := 2
  h := 2
  mem := (List.range 16).map fun k => (k, BitVec.ofNat 8 k)
  fresh := 0

/-- A block whose slot 0 is that buffer. -/
def filled (e : Endian) : State := { block e with slots := (block e).slots.set 0 filledSlot, draws := 1 }

/-- A block whose slot 0 is disposed. -/
def freed (e : Endian) : State := { block e with slots := (block e).slots.set 0 Slot.released }

/-- A block whose slot 0 is live with no pixels: w by 0. -/
def flat (e : Endian) (w : BitVec 32) : State := { block e with slots := (block e).slots.set 0 (Slot.allocated w 0 0), draws := 1 }

/-- The code, R0 and R1 after a step. -/
def results : Host.Outcome State Fault Refusal → Option (Code × Dword × Dword)
  | .next t => some (t.code, t.r0, t.r1)
  | .fault _ => none
  | .refused _ => none

/-- The newest reply after a step. -/
def reply : Host.Outcome State Fault Refusal → Option Reply
  | .next t => t.replies.head?
  | .fault _ => none
  | .refused _ => none

/-- The first n bytes of slot 0 after a step. -/
def bytes (n : Nat) : Host.Outcome State Fault Refusal → Option (List Byte)
  | .next t => some ((t.slot 0).byteList 0 n)
  | .fault _ => none
  | .refused _ => none

/-- The state and dimensions of slot 0 after a step. -/
def shape : Host.Outcome State Fault Refusal → Option (SlotState × BitVec 32 × BitVec 32)
  | .next t => some ((t.slot 0).state, (t.slot 0).w, (t.slot 0).h)
  | .fault _ => none
  | .refused _ => none

/-! ### Well-formedness and decoding -/

/-- 30_encoding.md R77: slot 4 does not exist on a block of four slots; slot 3 does; slot 255 does on a block of 256. -/
theorem test_wellFormed : (Instr.pbcreate 4).wellFormed 4 = false ∧ (Instr.pbstride 255).wellFormed 255 = false ∧
    (Instr.pbcreate 3).wellFormed 4 = true ∧ (Instr.pbcreate 255).wellFormed 256 = true ∧ Instr.fourcc.wellFormed 1 = true := by decide

/-- The eight BCU words, bit by bit (R76). -/
theorem test_decode_bcu :
    decode 0b00000000000000000000000000000001 = some .fourcc ∧ decode 0b00000000000000000000000000000010 = some .mkid ∧
    decode 0b00000000000000000000000000000011 = some .mkidfcc ∧ decode 0b00000000000000000000000000000100 = some .pack2 ∧
    decode 0b00000000000000000000000000000101 = some .unpack2 ∧ decode 0b00000000000000000000000000000110 = some .t2ms ∧
    decode 0b00000000000000000000000000000111 = some .ms2t ∧ decode 0b00000000000000000000000000001000 = some .idfor := by decide

/-- The ten PBU words, bit by bit, each with a slot of its own (R76, R77). -/
theorem test_decode_pbu :
    decode 0b00000000000000000000001100010000 = some (.pbcreate 3) ∧ decode 0b00000000000000000000000000010001 = some (.pbget 0) ∧
    decode 0b00000000000000000000000100010010 = some (.pbset 1) ∧ decode 0b00000000000000001000000000010011 = some (.pbalpha 128) ∧
    decode 0b00000000000000000000001000010100 = some (.pbfill 2) ∧ decode 0b00000000000000001111111100010101 = some (.pbread 255) ∧
    decode 0b00000000000000000000010000010110 = some (.pbfree 4) ∧ decode 0b00000000000000000100000000010111 = some (.pbdim 64) ∧
    decode 0b00000000000000000010000000011000 = some (.pbsize 32) ∧
    decode 0b00000000000000000000100000011001 = some (.pbstride 8) := by decide

/-- V-DEC-1 to V-DEC-6: words no configuration accepts. -/
theorem test_decode_refused :
    [0x00000000, 0x00000009, 0x0000001A, 0x00010001, 0x80000017, 0x00000101].map decode = List.replicate 6 none := by decide

/-- V-DEC-7 and V-DEC-8: a write of CMD, slot 3 legal, slot 4 not; STATUS after the second is 0x108. -/
theorem test_step_slot_range :
    results (step (asked (ops (block .little) 1 1 0) (.write 0 0x310 [] true))) = some (.ok, 0, 0) ∧
    reply (step (asked (ops (block .little) 1 1 0) (.write 0 0x410 [] true))) = some (.command 0x108 []) := by decide

/-- V-DEC-9 and V-DEC-10: a payload on PBGET is BadCommand; on PBFILL it is legal. -/
theorem test_step_payload :
    reply (step (asked (filled .little) (.write 0 0x11 [0x55] true))) = some (.command 0x108 []) ∧
    reply (step (asked (filled .little) (.write 0 0x14 [0x55] true))) = some (.command 0 []) := by decide

/-- The host's checks: a table word decodes, and runs as the first instruction after reset. -/
theorem test_withFetchWord : decodeTableWord 32 0x08 = some .idfor ∧
    results (step (State.reset.withFetchWord 32 0x08)) = some (.notFound, 0, 0) := by decide

/-- 10_state.md R27: CFG of a big-endian block of four slots. -/
theorem test_read_cfg : reply (step (asked (block .big) (.read 0x08))) = some (.value 0x301) := by decide

/-! ### The binary codec unit -/

/-- V-FCC-1 and V-FCC-4, both byte orders. -/
theorem test_fourcc_values :
    results (exec .fourcc (ops (block .little) 4 0x3231564E 4)) = some (.ok, 0x3231564E, 0) ∧
    results (exec .fourcc (ops (block .big) 4 0x3231564E 4)) = some (.ok, 0x4E563132, 0) ∧
    results (exec .fourcc (ops (block .little) 2 0x4241 2)) = some (.ok, 0x20204241, 0) ∧
    results (exec .fourcc (ops (block .big) 2 0x4241 2)) = some (.ok, 0x41422020, 0) := by decide

/-- V-FCC-8 (bytes above nb are ignored), V-FCC-9 (nb = 0), V-FCC-13 (the count is unsigned). -/
theorem test_fourcc_corners :
    results (exec .fourcc (ops (block .little) 1 0xFFFFFF41 1)) = some (.ok, 0x20202041, 0) ∧
    results (exec .fourcc (ops (block .big) 3 0x12345678 0)) = some (.ok, 0x20202020, 0) ∧
    results (exec .fourcc (ops (block .little) 0xFFFFFFFFFFFFFFFF 0x41 1)) = some (.invalidArgument, 0, 0) := by decide

/-- V-ID-4: the high half of A0 is ignored. -/
theorem test_mkid : results (exec .mkid (ops (block .big) 0x1234567800000016 0 0)) =
    some (.ok, 0x0000001600000010, 0x800000AA00389B71) := by decide

/-- 95_test_vectors.md section 2.2: IdBytes of V-ID-1. -/
theorem test_idBytes : idBytes (buildId 0x3231564E) =
    [0x32, 0x31, 0x56, 0x4E, 0x00, 0x00, 0x00, 0x10, 0x80, 0x00, 0x00, 0xAA, 0x00, 0x38, 0x9B, 0x71] := by decide

/-- V-ID-5, V-ID-6 and V-ID-8. -/
theorem test_mkidfcc :
    results (exec .mkidfcc (ops (block .little) 4 0x3231564E 4)) = some (.ok, 0x3231564E00000010, 0x800000AA00389B71) ∧
    results (exec .mkidfcc (ops (block .big) 4 0x3231564E 4)) = some (.ok, 0x4E56313200000010, 0x800000AA00389B71) ∧
    results (exec .mkidfcc (ops (block .big) 0 0 0)) = some (.invalidArgument, 0, 0) := by decide

/-- E1 (1920, 1080) and V-PK-3: the high halves are ignored. -/
theorem test_pack2 :
    results (exec .pack2 (ops (block .big) 1920 1080 0)) = some (.ok, 0x0000078000000438, 0) ∧
    results (exec .pack2 (ops (block .little) 0xFFFFFFFF00000002 0xFFFFFFFF00000003 0)) = some (.ok, 0x0000000200000003, 0) := by decide

/-- E1, the byte images of the two paths. -/
theorem test_pair_images :
    encodeLittleEndianPair 1920 1080 = [0x38, 0x04, 0x00, 0x00, 0x80, 0x07, 0x00, 0x00] ∧
    encodeBigEndianPair 1920 1080 = [0x00, 0x00, 0x07, 0x80, 0x00, 0x00, 0x04, 0x38] := by decide

/-- V-UP-2 and V-UP-4: each half is sign-extended by itself. -/
theorem test_unpack2 :
    results (exec .unpack2 (ops (block .little) 0x8000000000000000 0 0)) = some (.ok, 0xFFFFFFFF80000000, 0) ∧
    results (exec .unpack2 (ops (block .little) 0x7FFFFFFF80000000 0 0)) = some (.ok, 0x7FFFFFFF, 0xFFFFFFFF80000000) := by decide

/-- V-T-3, V-T-5, V-T-7, V-T-9: truncation toward zero, and the most negative operand. -/
theorem test_t2ms :
    results (exec .t2ms (ops (block .little) 0x270F 0 0)) = some (.ok, 0, 0) ∧
    results (exec .t2ms (ops (block .little) 0xFFFFFFFFFFFF9E58 0 0)) = some (.ok, 0xFFFFFFFFFFFFFFFE, 0) ∧
    results (exec .t2ms (ops (block .little) 0xFFFFFFFFFFFFFFFF 0 0)) = some (.ok, 0, 0) ∧
    results (exec .t2ms (ops (block .little) 0x8000000000000000 0 0)) = some (.ok, 0xFFFCB923A29C779B, 0) := by decide

/-- V-M-3 (the product is rounded before it is truncated), V-M-6, V-M-8, V-M-9, V-M-10. -/
theorem test_ms2t_rounding :
    results (exec .ms2t (ops (block .little) 0x3FD3333333333333 0 0)) = some (.ok, 3000, 0) ∧
    results (exec .ms2t (ops (block .little) 0x3F23A92A30553261 0 0)) = some (.ok, 1, 0) ∧
    results (exec .ms2t (ops (block .little) 0xBFE0000000000000 0 0)) = some (.ok, 0xFFFFFFFFFFFFEC78, 0) ∧
    results (exec .ms2t (ops (block .little) 0x8000000000000000 0 0)) = some (.ok, 0, 0) ∧
    results (exec .ms2t (ops (block .little) 0x0000000000000001 0 0)) = some (.ok, 0, 0) := by decide +kernel

/-- V-M-13, V-M-14, V-M-15, V-M-17, V-M-18, V-M-20: the ends of the range. -/
theorem test_ms2t_range :
    results (exec .ms2t (ops (block .little) 0x430A36E2EB1C432C 0 0)) = some (.ok, 0x7FFFFFFFFFFFFC00, 0) ∧
    results (exec .ms2t (ops (block .little) 0x430A36E2EB1C432D 0 0)) = some (.invalidArgument, 0, 0) ∧
    results (exec .ms2t (ops (block .little) 0xC30A36E2EB1C432D 0 0)) = some (.ok, 0x8000000000000000, 0) ∧
    results (exec .ms2t (ops (block .little) 0x7FEFFFFFFFFFFFFF 0 0)) = some (.invalidArgument, 0, 0) ∧
    results (exec .ms2t (ops (block .little) 0x7FF0000000000000 0 0)) = some (.invalidArgument, 0, 0) ∧
    results (exec .ms2t (ops (block .little) 0x7FF8000000000000 0 0)) = some (.invalidArgument, 0, 0) := by decide +kernel

/-- V-REG-2, V-REG-3, V-REG-4. -/
theorem test_idfor :
    results (exec .idfor (ops (block .little) 9 0 0)) = some (.ok, 0x0011223344556677, 0x8899AABBCCDDEEFF) ∧
    results (exec .idfor (ops (block .little) 0xFFFFFFFF00000007 0 0)) = some (.ok, 0x3231564E00000010, 0x800000AA00389B71) ∧
    results (exec .idfor (ops (block .little) 8 0 0)) = some (.notFound, 0, 0) := by decide

/-! ### The pixel buffer unit -/

/-- V-CR-1, V-CR-10 and V-CR-12. -/
theorem test_pbcreate_allocates :
    shape (exec (.pbcreate 0) (ops (block .little) 4 3 0)) = some (.live, 4, 3) ∧
    shape (exec (.pbcreate 0) (ops (block .little) 0xFFFFFFFF00000002 2 0)) = some (.live, 2, 2) ∧
    shape (exec (.pbcreate 0) (ops (freed .little) 2 2 0)) = some (.live, 2, 2) := by decide

/-- V-CR-6, V-CR-8, V-CR-9, V-CR-11, V-CR-13, V-CR-15: the errors, in their order. -/
theorem test_pbcreate_errors :
    results (exec (.pbcreate 0) (ops (block .little) 23171 23171 0)) = some (.allocationFailure, 0, 0) ∧
    results (exec (.pbcreate 0) (ops (block .little) 0xFFFFFFFF 2 0)) = some (.invalidArgument, 0, 0) ∧
    results (exec (.pbcreate 0) (ops (block .little) 0x80000000 0x7FFFFFFF 0)) = some (.invalidArgument, 0, 0) ∧
    results (exec (.pbcreate 0) (ops (filled .little) 0xFFFFFFFF 0xFFFFFFFF 0)) = some (.slotInUse, 0, 0) ∧
    results (exec (.pbcreate 0) { ops (block .little) 16 17 0 with cfg := { (block .little).cfg with maxBytes := 1024 } }) =
      some (.allocationFailure, 0, 0) ∧
    results (exec (.pbcreate 0) { ops (block .little) 1 1 0 with allocOk := false }) = some (.allocationFailure, 0, 0) := by decide

/-- V-PX-2 and V-PX-4, both byte orders. -/
theorem test_pbget_values :
    results (exec (.pbget 0) (ops (filled .little) 1 0 0)) = some (.ok, 0x07060504, 0) ∧
    results (exec (.pbget 0) (ops (filled .big) 1 0 0)) = some (.ok, 0x04050607, 0) ∧
    results (exec (.pbget 0) (ops (filled .little) 1 1 0)) = some (.ok, 0x0F0E0D0C, 0) := by decide

/-- V-PX-5, V-PX-6, V-PX-7; and Disposed comes before OutOfBounds. -/
theorem test_pbget_bounds :
    results (exec (.pbget 0) (ops (filled .little) 2 0 0)) = some (.outOfBounds, 0, 0) ∧
    results (exec (.pbget 0) (ops (filled .little) 0xFFFFFFFF 0 0)) = some (.outOfBounds, 0, 0) ∧
    results (exec (.pbget 0) (ops (filled .little) 0xFFFFFFFF00000001 0 0)) = some (.ok, 0x07060504, 0) ∧
    results (exec (.pbget 0) (ops (freed .little) 0xFFFFFFFF 0xFFFFFFFF 0)) = some (.disposed, 0, 0) := by decide

/-- V-PX-8, both byte orders. -/
theorem test_pbset_bytes :
    bytes 9 (exec (.pbset 0) (ops (filled .little) 1 0 0xAABBCCDD)) = some [0, 1, 2, 3, 0xDD, 0xCC, 0xBB, 0xAA, 8] ∧
    bytes 9 (exec (.pbset 0) (ops (filled .big) 1 0 0xAABBCCDD)) = some [0, 1, 2, 3, 0xAA, 0xBB, 0xCC, 0xDD, 8] := by decide

/-- V-PX-9: no byte changes. -/
theorem test_pbset_bounds :
    results (exec (.pbset 0) (ops (filled .little) 0 2 1)) = some (.outOfBounds, 0, 0) ∧
    bytes 16 (exec (.pbset 0) (ops (filled .little) 0 2 1)) = some sixteen := by decide

/-- V-ALPHA-1, both byte orders. -/
theorem test_pbalpha_bytes :
    bytes 16 (exec (.pbalpha 0) (filled .little)) =
      some [0x00, 0x01, 0x02, 0xFF, 0x04, 0x05, 0x06, 0xFF, 0x08, 0x09, 0x0A, 0xFF, 0x0C, 0x0D, 0x0E, 0xFF] ∧
    bytes 16 (exec (.pbalpha 0) (filled .big)) =
      some [0xFF, 0x01, 0x02, 0x03, 0xFF, 0x05, 0x06, 0x07, 0xFF, 0x09, 0x0A, 0x0B, 0xFF, 0x0D, 0x0E, 0x0F] := by decide

/-- V-ALPHA-4 and V-ALPHA-5. -/
theorem test_pbalpha_corners :
    results (exec (.pbalpha 0) (flat .little 0)) = some (.ok, 0, 0) ∧
    results (exec (.pbalpha 0) (freed .little)) = some (.disposed, 0, 0) := by decide

/-- V-FL-3: a short payload. -/
theorem test_pbfill_short : bytes 16 (exec (.pbfill 0) (carrying (filled .little) [0xAA, 0xBB, 0xCC])) =
    some [0xAA, 0xBB, 0xCC, 0x03, 0x04, 0x05, 0x06, 0x07, 0x08, 0x09, 0x0A, 0x0B, 0x0C, 0x0D, 0x0E, 0x0F] := by decide

/-- V-FL-2, V-FL-6, V-FL-7, V-FL-8. -/
theorem test_pbfill_sizes :
    results (exec (.pbfill 0) (carrying (filled .little) (0x55 :: sixteen))) = some (.sizeMismatch, 0, 0) ∧
    results (exec (.pbfill 0) (carrying (flat .little 0) [0x55])) = some (.sizeMismatch, 0, 0) ∧
    results (exec (.pbfill 0) (flat .little 0)) = some (.ok, 0, 0) ∧
    results (exec (.pbfill 0) (carrying (freed .little) (0x55 :: sixteen))) = some (.disposed, 0, 0) := by decide

/-- E10, V-RD-2 and V-RD-3. -/
theorem test_pbread :
    reply (exec (.pbread 0) (filled .big)) = some (.command 0 sixteen) ∧
    reply (exec (.pbread 0) (flat .big 5)) = some (.command 0 []) ∧
    reply (exec (.pbread 0) (freed .big)) = some (.command 0x104 []) := by decide

/-- V-RD-4: an unwritten byte reads as its draw, whatever that is. -/
theorem test_pbread_draws :
    bytes 4 (exec (.pbcreate 0) (ops (block .little) 1 1 0)) =
      some [Config.initByte 0 0, Config.initByte 0 1, Config.initByte 0 2, Config.initByte 0 3] := rfl

/-- V-FR-1, V-FR-2 and V-FR-3. -/
theorem test_pbfree :
    shape (exec (.pbfree 0) (filled .little)) = some (.disposed, 0, 0) ∧
    shape (exec (.pbfree 0) (freed .little)) = some (.disposed, 0, 0) ∧
    shape (exec (.pbfree 0) (block .little)) = some (.empty, 0, 0) ∧
    results (exec (.pbfree 0) (freed .little)) = some (.ok, 0, 0) := by decide

/-- PBDIM of a live 2 by 2 buffer and of a free slot (V-AC-2). -/
theorem test_pbdim :
    results (exec (.pbdim 0) (filled .little)) = some (.ok, 2, 2) ∧ results (exec (.pbdim 0) (freed .little)) = some (.ok, 0, 0) := by decide

/-- V-AC-4. -/
theorem test_pbsize :
    results (exec (.pbsize 0) (withSlot (block .little) 0 (Slot.allocated 23170 23170 0))) = some (.ok, 0x7FFEA810, 0x1FFFAA04) := by decide

/-- V-AC-3 and V-CR-4. -/
theorem test_pbstride :
    results (exec (.pbstride 0) (flat .little 5)) = some (.ok, 20, 0) ∧
    results (exec (.pbstride 0) (flat .little 0x7FFFFFFF)) = some (.ok, 0x1FFFFFFFC, 0) := by decide

/-! ### Witnesses of the statements' hypotheses -/

/-- A block of four slots with one buffer in slot 0. -/
theorem slot_of_table {s : State} {sl : Slot} (h : s.slots = [sl, Slot.unused, Slot.unused, Slot.unused]) (n : SlotField) :
    s.slot n = if n = 0 then sl else Slot.unused := by
  unfold State.slot
  rw [h]
  rcases hn : n.toNat with _ | _ | _ | _ | k
  · rw [if_pos (BitVec.eq_of_toNat_eq hn)]; rfl
  all_goals rw [if_neg (by rintro rfl; cases hn)]; rfl

/-- Such a block meets the invariant when its buffer is well formed. -/
theorem inv_of_table {s : State} {sl : Slot} (h : s.slots = [sl, Slot.unused, Slot.unused, Slot.unused]) (hn : s.cfg.numSlots = 4)
    (hc : s.cfg.Wf) (hw : sl.Wf s.cfg s.draws) (hk : s.code ≠ .ok → s.sticky = true) (hp : s.payload = []) : s.Inv where
  config := hc
  table := by rw [h, hn]; rfl
  slots n := by
    rw [slot_of_table h]
    split
    · exact hw
    · exact Slot.unused_wf _ _
  streams m n hmn hm hl := by
    rw [slot_of_table h] at hm hl
    split at hm
    · split at hl
      · rename_i h1 h2; exact absurd (h1.trans h2.symm) hmn
      · cases hl
    · cases hm
  sticky := hk
  port := hp

theorem block_cfg_wf (e : Endian) : (block e).cfg.Wf := by cases e <;> decide

theorem filledSlot_wf (e : Endian) : filledSlot.Wf (block e).cfg 1 where
  canonical := by decide
  dimensions _ := by decide
  fits _ := by cases e <;> decide
  inside _ := by decide
  drawn _ := by decide
  gone h := absurd rfl h

theorem filled_inv (e : Endian) : (filled e).Inv :=
  inv_of_table rfl rfl (block_cfg_wf e) (filledSlot_wf e) (by cases e <;> decide) rfl

/-- The same block with the host's next action, operands and draws of our choice. -/
theorem filled_inv_of (e : Endian) (x y z : Dword) (q : List HostAction) :
    ({ ops (filled e) x y z with pending := q } : State).Inv :=
  inv_of_table rfl rfl (block_cfg_wf e) (filledSlot_wf e) (fun h => absurd rfl h) rfl

theorem freed_inv (e : Endian) : (freed e).Inv :=
  inv_of_table rfl rfl (block_cfg_wf e) (Slot.released_wf _ _) (by cases e <;> decide) rfl

theorem witness_ResetLeavesTheSpecsValues : State.reset = State.resetWith Config.chosen ∧ 0 < Config.chosen.numSlots ∧
    255 < Config.chosen.numSlots := ⟨rfl, by decide, by decide⟩

theorem witness_ResetInputRestoresEveryPieceOfState :
    (asked (filled .big) .reset).pending = .reset :: [] ∧ 3 < (asked (filled .big) .reset).cfg.numSlots := by decide

theorem witness_InvariantHoldsAfterReset :
    (block .big).cfg.Wf ∧ (Config.mk .little 1 0 []).Wf ∧ (Config.mk .big 256 2147483647 [(0, 0)]).Wf := by decide

theorem witness_EveryStepKeepsTheInvariant :
    ∃ s t : State, s.Inv ∧ step s = .next t ∧ t.slots ≠ s.slots :=
  ⟨_, _, filled_inv_of .little 1 1 0 [.write 0 0x12 [] true], rfl, by decide⟩

theorem witness_AnErrorChangesOnlyTheStatus : ∃ t, exec (.pbget 0) (block .little) = .next t ∧ t.code ≠ .ok :=
  ⟨_, rfl, by decide⟩

theorem witness_ASuccessKeepsSticky :
    (∃ t, exec .mkid (block .little) = .next t ∧ t.code = .ok) ∧
    ∃ t, exec .mkid { block .little with sticky := true } = .next t ∧ t.code = .ok := ⟨⟨_, rfl, rfl⟩, _, rfl, rfl⟩

theorem witness_StickyIsSetByErrorsAndClearedOnlyByReset :
    (∃ t, exec .idfor (ops (block .little) 8 0 0) = .next t ∧ t.code ≠ .ok) ∧
    (∃ t, step (asked { block .little with sticky := true } (.write 0 0x02 [] true)) = .next t ∧
      (asked { block .little with sticky := true } (.write 0 0x02 [] true)).sticky = true) ∧
    (asked { block .little with sticky := true } .reset).pending = .reset :: [] :=
  ⟨⟨_, rfl, by decide⟩, ⟨_, rfl, rfl⟩, rfl⟩

theorem witness_OperandRegistersKeepTheHostsValue :
    (∃ t, step (asked (block .little) (.write 0x18 7 [] true)) = .next t) ∧
    (∀ rest, (asked (block .little) (.write 0x18 7 [] true)).pending ≠ .reset :: rest) ∧
    (∀ v p ok rest, (asked (block .little) (.write 0x18 7 [] true)).pending ≠ .write 0x10 v p ok :: rest) ∧
    (∀ v p ok rest, (asked (block .little) (.write 0x18 7 [] true)).pending ≠ .write 0x20 v p ok :: rest) ∧
    (∀ v p ok rest, (asked (block .little) (.write 0x10 7 [] true)).pending ≠ .write 0x18 v p ok :: rest) :=
  ⟨⟨_, rfl⟩, by simp [asked], by simp [asked], by simp [asked], by simp [asked]⟩

theorem witness_ResultRegistersAreWrittenOnlyAsTheRuleNames :
    ∃ t, exec .mkid (block .little) = .next t ∧ t.r0 ≠ (block .little).r0 ∧ t.r1 ≠ (block .little).r1 ∧ writesR0 .mkid = true ∧
      writesR1 .mkid = true ∧ t.code = .ok := ⟨_, rfl, by decide⟩

theorem witness_MemoryChangesOnlyByTheStoringCommands :
    (∃ t, exec (.pbget 0) (filled .little) = .next t ∧ changesSlot (.pbget 0) = false) ∧
    ∃ t, exec (.pbset 0) (filled .little) = .next t ∧ ((filled .little).slot 0).isLive ∧
      (t.slot 0).byte 3 ≠ ((filled .little).slot 0).byte 3 := ⟨⟨_, rfl, rfl⟩, _, rfl, by decide, by decide⟩

theorem witness_SlotStatesChangeOnlyByCreateAndFree :
    (∃ t, exec (.pbcreate 3) (block .little) = .next t ∧ (t.slot 3).state ≠ ((block .little).slot 3).state) ∧
    ∃ t, exec (.pbfree 0) (filled .little) = .next t ∧ (t.slot 0).state ≠ ((filled .little).slot 0).state :=
  ⟨⟨_, rfl, by decide⟩, _, rfl, by decide⟩

theorem witness_EmptyAndDisposedBehaveAlike : (3 : SlotField).toNat < (block .little).slots.length ∧
    ((block .little).slot 3).state = .empty := by decide

theorem witness_DeliveredRepliesNeverChange : ∃ t, step (asked (filled .little) (.write 0 0x15 [] true)) = .next t ∧
    t.replies ≠ (filled .little).replies := ⟨_, rfl, by decide⟩

theorem witness_StatusRegisterHasItsFields :
    (asked (block .little) (.write 0x04 0xFF [] true)).pending = .write 0x04 0xFF [] true :: [] ∧
    (∃ t, step (asked (block .little) (.write 0x04 0xFF [] true)) = .next t) ∧
    (∀ v p ok rest, (asked (block .little) (.write 0x04 0xFF [] true)).pending ≠ .write 0x00 v p ok :: rest) ∧
    (∀ rest, (asked (block .little) (.write 0x04 0xFF [] true)).pending ≠ .reset :: rest) :=
  ⟨rfl, ⟨_, rfl⟩, by simp [asked], by simp [asked]⟩

theorem witness_ConfigurationRegisterNeverChanges :
    (Config.mk .big 256 0 []).Wf ∧ (Config.mk .little 1 0 []).Wf ∧
    (asked (block .big) (.write 0x08 0xFF [] true)).pending = .write 0x08 0xFF [] true :: [] ∧
    ∃ t, step (asked (block .big) (.write 0x08 0xFF [] true)) = .next t := ⟨by decide, by decide, rfl, _, rfl⟩

theorem witness_TheRegisterWindowReadsAndWrites :
    (∀ off ∈ [0x00, 0x04, 0x08, 0x0C, 0x10, 0x18, 0x20, 0x28, 0x30, 0x38],
      (asked (block .big) (.read off)).pending = .read off :: []) ∧
    (∀ off ∈ [0x00, 0x04, 0x08, 0x0C, 0x10, 0x18, 0x20, 0x28, 0x30, 0x38],
      (asked (block .big) (.write off 1 [] true)).pending = .write off 1 [] true :: []) ∧
    0x00 ∉ [0x04, 0x08, 0x10, 0x18, 0x20, 0x28, 0x30] ∧ 0x38 ∉ [0x04, 0x08, 0x10, 0x18, 0x20, 0x28, 0x30] ∧
    0x28 ∉ [0x00, 0x10, 0x18, 0x20] := by decide

/-- Each of the five tests, at a boundary of its range, and two transactions that pass all of them. -/
theorem witness_IllegalCommandsRaiseBadCommand :
    (asked (block .little) (.write 0 0x80000017 [] true)).pending = .write 0x00 0x80000017 [] true :: [] ∧
    Illegal (block .little).cfg 0x00010001 [] ∧ Illegal (block .little).cfg 0x00000000 [] ∧
    Illegal (block .little).cfg 0x00000009 [] ∧ Illegal (block .little).cfg 0x0000000F [] ∧
    Illegal (block .little).cfg 0x0000001A [] ∧ Illegal (block .little).cfg 0x00000108 [] ∧
    Illegal (block .little).cfg 0x00000410 [] ∧ Illegal (block .little).cfg 0x00000011 [0] ∧
    ¬ Illegal (block .little).cfg 0x00000310 [] ∧ ¬ Illegal (block .little).cfg 0x00000314 [0] ∧
    ¬ Illegal (block .little).cfg 0x00000001 [] ∧ ¬ Illegal (block .little).cfg 0x00000008 [] ∧
    ¬ Illegal (block .little).cfg 0x00000019 [] := by
  refine ⟨rfl, ?_, ?_, ?_, ?_, ?_, ?_, ?_, ?_, ?_, ?_, ?_, ?_, ?_⟩ <;> unfold Illegal <;> decide

theorem witness_TheOpcodeMapIsDecoded :
    (0x00000000 : Word).extractLsb' 0 8 = 0x00#8 ∧ ((0x00000009 : Word).extractLsb' 0 8).toNat = 0x09 ∧
    ((0x0000000F : Word).extractLsb' 0 8).toNat = 0x0F ∧ 0x1A ≤ ((0x0000001A : Word).extractLsb' 0 8).toNat := by decide

theorem witness_AStepRunsTheDecodedCommand :
    (asked (block .little) (.write 0 0x02 [] true)).pending = .write 0x00 0x02 [] true :: [] ∧
    decode ((0x02 : Dword).extractLsb' 0 32) = some .mkid := by decide

theorem witness_ProgramLinesDoWhatTheySay (l : HostLine) :
    (asked (block .little) (l.assemble true)).pending = l.assemble true :: [] := rfl

theorem witness_FourccPacksTheCodeInNativeOrder :
    (block .big).payload = [] ∧ (1 ≤ (ops (block .big) 1 0 0).a0.toNat ∧ (ops (block .big) 1 0 0).a0.toNat ≤ 4) ∧
    (1 ≤ (ops (block .big) 4 0 0).a0.toNat ∧ (ops (block .big) 4 0 0).a0.toNat ≤ 4) ∧ (ops (block .big) 0 0 0).a0.toNat = 0 ∧
    4 < (ops (block .big) 5 0 0).a0.toNat := by decide

theorem witness_MkidfccBuildsTheIdentifierOfTheCode :
    (block .little).payload = [] ∧ (1 ≤ (ops (block .little) 1 0 0).a0.toNat ∧ (ops (block .little) 1 0 0).a0.toNat ≤ 4) ∧
    (1 ≤ (ops (block .little) 4 0 0).a0.toNat ∧ (ops (block .little) 4 0 0).a0.toNat ≤ 4) ∧
    (ops (block .little) 0 0 0).a0.toNat = 0 ∧ 4 < (ops (block .little) 5 0 0).a0.toNat := by decide

theorem witness_TheFourccImageIsThePaddedCode : (ops (block .big) 4 0x3231564E 4).payload = [] ∧
    1 ≤ (ops (block .big) 4 0x3231564E 4).a0.toNat ∧ (ops (block .big) 4 0x3231564E 4).a0.toNat ≤ 4 := by decide

/-- The one hypothesis of the statements about MKID, PACK2, UNPACK2, T2MS, their round trips and their images. -/
theorem witness_MkidBuildsTheIdentifier : (ops (block .big) 1 2 3).payload = [] := rfl
theorem witness_Pack2JoinsTheTwoValues : (ops (block .big) 0xFFFFFFFF 1 0).payload = [] := rfl
theorem witness_Unpack2SignExtendsEachHalf : (ops (block .big) 0x80000000FFFFFFFF 0 0).payload = [] := rfl
theorem witness_PackingThenUnpackingReturnsThePair : (ops (block .big) 0xFFFFFFFF 1 0).payload = [] := rfl
theorem witness_ThePackedImageIsTheNamedPath : (ops (block .big) 640 480 0).payload = [] := rfl
theorem witness_T2msTruncatesTowardZero : (ops (block .big) 0x8000000000000000 0 0).payload = [] := rfl

theorem witness_Ms2tRefusesNanAndInfinity :
    (ops (block .big) 0x7FF8000000000000 0 0).payload = [] ∧
    (ops (block .big) 0x7FF8000000000000 0 0).a0.extractLsb' 52 11 = 0x7FF#11 ∧
    (ops (block .big) 0xFFF0000000000000 0 0).a0.extractLsb' 52 11 = 0x7FF#11 := by decide

/-- The ends of the finite range; the two that give a product just inside and just outside the signed range are V-M-15 and V-M-14. -/
theorem witness_Ms2tRoundsToNearestThenTruncates :
    (block .big).payload = [] ∧ FiniteNumber 0 ∧ FiniteNumber 1 ∧ FiniteNumber 0x7FEFFFFFFFFFFFFF ∧
    FiniteNumber 0xC30A36E2EB1C432D ∧ FiniteNumber 0x430A36E2EB1C432D := by
  unfold FiniteNumber; decide

/-- A normal, positive number from its exponent and fraction fields. -/
theorem numberOf_normal {v : Dword} {b f : Nat} (hs : v.getLsbD 63 = false) (hz : v.extractLsb' 52 11 ≠ 0#11)
    (hb : (v.extractLsb' 52 11).toNat = b) (hf : (v.extractLsb' 0 52).toNat = f) :
    numberOf v = (2 ^ 52 + f : ℚ) * (2 : ℚ) ^ ((b : Int) - 1075) := by
  rw [numberOf, hs, if_neg hz, hb, hf]; simp

/-- k = 1, and the largest k in range, 900719925474. -/
theorem witness_WholeMillisecondsRoundTrip :
    (block .big).payload = [] ∧ FiniteNumber 0x3FF0000000000000 ∧ numberOf 0x3FF0000000000000 = (1 : Int) ∧
    |(1 : Int)| * 10000 < 2 ^ 53 ∧ FiniteNumber 0x426A36E2EB1C4000 ∧ numberOf 0x426A36E2EB1C4000 = (900719925474 : Int) ∧
    |(900719925474 : Int)| * 10000 < 2 ^ 53 := by
  refine ⟨rfl, by unfold FiniteNumber; decide, ?_, by norm_num, by unfold FiniteNumber; decide, ?_, by norm_num⟩
  · rw [numberOf_normal (b := 1023) (f := 0) (by decide) (by decide) (by decide) (by decide)]; norm_num
  · rw [numberOf_normal (b := 0x426) (f := 0xA36E2EB1C4000) (by decide) (by decide) (by decide) (by decide)]; norm_num

theorem witness_IdforLooksTheKeyUp :
    (ops (block .big) 9 0 0).payload = [] ∧ ((block .big).cfg.registry.map Prod.fst).Nodup ∧
    ((ops (block .big) 9 0 0).a0.extractLsb' 0 32, 0x00112233445566778899AABBCCDDEEFF) ∈ (block .big).cfg.registry ∧
    (∀ id, ((ops (block .big) 8 0 0).a0.extractLsb' 0 32, id) ∉ (block .big).cfg.registry) :=
  ⟨rfl, by decide, by decide, fun id => by simp [block, ops, State.resetWith]⟩

theorem witness_BcuResultsDependOnOperandsAndConfigurationAlone :
    Instr.mkid.slot? = none ∧ (filled .big).a0 = (block .big).a0 ∧ (filled .big).a1 = (block .big).a1 ∧
    (filled .big).a2 = (block .big).a2 ∧ (filled .big).cfg.endian = (block .big).cfg.endian ∧
    (filled .big).cfg.registry = (block .big).cfg.registry ∧ (filled .big).payload = (block .big).payload ∧
    (filled .big).slots ≠ (block .big).slots := by decide

/-- Each clause, at the boundaries of the dimensions and of the size: 23170 * 23170 * 4 fits, 23171 * 23171 * 4 does not. -/
theorem witness_PbcreateAllocatesTheSlot :
    Starts (block .little) 3 ∧ ((block .little).slot 3).state ≠ .live ∧ Starts (filled .little) 0 ∧
    ((filled .little).slot 0).state = .live ∧ firstS32 (ops (block .little) 0xFFFFFFFF 0 0) < 0 ∧
    secondS32 (ops (block .little) 0 0x80000000 0) < 0 ∧ 0 ≤ firstS32 (ops (block .little) 23171 23171 0) ∧
    2147483647 < firstS32 (ops (block .little) 23171 23171 0) * secondS32 (ops (block .little) 23171 23171 0) * 4 ∧
    firstS32 (ops (block .little) 23170 23170 0) * secondS32 (ops (block .little) 23170 23170 0) * 4 ≤ 2147483647 ∧
    firstS32 (ops (block .little) 23170 23170 0) * secondS32 (ops (block .little) 23170 23170 0) * 4 ≤
      ((block .little).cfg.maxBytes : Int) ∧
    (block .little).allocOk = true ∧ ({ block .little with allocOk := false } : State).allocOk = false := by
  unfold Starts; decide

/-- The last pixel (1, 1) is in bounds, (2, 0) and (0, 2) are not; slot 0 of the freed block is not live. -/
theorem witness_PbgetReadsThePixelWord :
    Starts (ops (filled .big) 1 1 0) 0 ∧ ((ops (filled .big) 1 1 0).slot 0).state = .live ∧
    InBounds (ops (filled .big) 1 1 0) 0 ∧ ¬ InBounds (ops (filled .big) 2 0 0) 0 ∧ ¬ InBounds (ops (filled .big) 0 2 0) 0 ∧
    ¬ InBounds (ops (filled .big) 0xFFFFFFFF 0 0) 0 ∧ Starts (freed .big) 0 ∧ ((freed .big).slot 0).state ≠ .live := by
  unfold Starts InBounds; decide

theorem witness_PbsetWritesThePixelWord :
    Starts (ops (filled .big) 1 1 7) 0 ∧ ((ops (filled .big) 1 1 7).slot 0).state = .live ∧
    InBounds (ops (filled .big) 1 1 7) 0 ∧ ¬ InBounds (ops (filled .big) 0 2 7) 0 ∧ Starts (freed .big) 0 ∧
    ((freed .big).slot 0).state ≠ .live := by
  unfold Starts InBounds; decide

theorem witness_PbalphaForcesEveryAlpha :
    Starts (filled .big) 0 ∧ ((filled .big).slot 0).state = .live ∧
    ((3 : Nat) : Int) < ((filled .big).slot 0).w.toInt * ((filled .big).slot 0).h.toInt ∧
    byteSize ((filled .big).slot 0) ≤ ((16 : Nat) : Int) ∧ Starts (freed .big) 0 ∧ ((freed .big).slot 0).state ≠ .live := by
  unfold Starts; decide

theorem witness_PbalphaChangesOneByteAPixelAndIsIdempotent :
    (filled .big).Inv ∧ (0 : SlotField).toNat < (filled .big).cfg.numSlots ∧ ((filled .big).slot 0).state = .live :=
  ⟨filled_inv .big, by decide, by decide⟩

/-- A payload of exactly SIZE bytes, one a byte longer, and a slot that is not live. -/
theorem witness_PbfillCopiesThePayload :
    (0 : SlotField).toNat < (filled .big).cfg.numSlots ∧ ((filled .big).slot 0).state = .live ∧
    (((carrying (filled .big) sixteen).payload.length : Nat) : Int) ≤ byteSize ((carrying (filled .big) sixteen).slot 0) ∧
    byteSize ((filled .big).slot 0) < (((carrying (filled .big) (0 :: sixteen)).payload.length : Nat) : Int) ∧
    ((freed .big).slot 0).state ≠ .live := by decide

theorem witness_PbreadReturnsEveryByte :
    Starts (filled .big) 0 ∧ ((filled .big).slot 0).state = .live ∧ ((15 : Nat) : Int) < byteSize ((filled .big).slot 0) ∧
    Starts (freed .big) 0 ∧ ((freed .big).slot 0).state ≠ .live := by
  unfold Starts; decide

theorem witness_PbfreeReleasesALiveSlot :
    Starts (filled .big) 0 ∧ ((filled .big).slot 0).state = .live ∧ Starts (freed .big) 0 ∧ ((freed .big).slot 0).state ≠ .live := by
  unfold Starts; decide

theorem witness_PbdimReadsTheDimensions : Starts (freed .big) 0 ∧ (freed .big).Inv ∧ ((freed .big).slot 0).state ≠ .live :=
  ⟨by unfold Starts; decide, freed_inv .big, by decide⟩

theorem witness_PbsizeReadsTheSizeAndCount : (Starts (freed .big) 0 ∧ (freed .big).Inv ∧ ((freed .big).slot 0).state ≠ .live) ∧
    Starts (filled .big) 0 ∧ (filled .big).Inv :=
  ⟨⟨by unfold Starts; decide, freed_inv .big, by decide⟩, by unfold Starts; decide, filled_inv .big⟩

theorem witness_PbstrideReadsTheStride : (Starts (freed .big) 0 ∧ (freed .big).Inv ∧ ((freed .big).slot 0).state ≠ .live) ∧
    Starts (filled .big) 0 ∧ (filled .big).Inv ∧ 1 ≤ ((filled .big).slot 0).h.toInt :=
  ⟨⟨by unfold Starts; decide, freed_inv .big, by decide⟩, by unfold Starts; decide, filled_inv .big, by decide⟩

theorem witness_PbuCommandsSeeOnlyTheirOwnSlot :
    (Instr.pbget 0).slot? = some 0 ∧
    [filledSlot, Slot.released, Slot.unused, filledSlot].length = (filled .big).slots.length ∧
    ({ filled .big with slots := [filledSlot, Slot.released, Slot.unused, filledSlot] } : State).slot 0 = (filled .big).slot 0 := by
  decide

/-- The last pixel of a 2 by 2 buffer, its index, a PBSET that changes its last byte, and a memory that differs beyond the size. -/
theorem witness_PixelWordsLieInsideTheMemory :
    filledSlot.pixelIndex 1 1 = some 3 ∧ 0 ≤ filledSlot.w.toInt ∧ ((4 * 3 : Nat) : Int) < byteSize filledSlot ∧
    InBounds (ops (filled .big) 1 1 0) 0 ∧
    (∃ t, exec (.pbset 0) (ops (filled .big) 1 1 0) = .next t ∧
      (t.slot 0).byte 15 ≠ ((ops (filled .big) 1 1 0).slot 0).byte 15) ∧
    (∀ a : Nat, (a : Int) < byteSize ((filled .big).slot 0) →
      (withMem ((filled .big).slot 0) (filledSlot.mem ++ [(16, 0)])).byte a = ((filled .big).slot 0).byte a) := by
  refine ⟨by decide, by decide, by decide, by unfold InBounds; decide, ⟨_, rfl, by decide⟩, fun a ha => ?_⟩
  have h : a < 16 := by
    have : byteSize ((filled .big).slot 0) = 16 := by decide
    omega
  interval_cases a <;> decide

theorem witness_SettingThenGettingReturnsThePixel :
    (ops (filled .big) 1 1 7).Inv ∧ (0 : SlotField).toNat < (ops (filled .big) 1 1 7).cfg.numSlots ∧
    ((ops (filled .big) 1 1 7).slot 0).state = .live ∧ InBounds (ops (filled .big) 1 1 7) 0 ∧
    firstS32 { ops (filled .big) 1 1 7 with a0 := 0 } ≠ firstS32 (ops (filled .big) 1 1 7) ∧
    secondS32 { ops (filled .big) 1 1 7 with a1 := 2 } ≠ secondS32 (ops (filled .big) 1 1 7) :=
  ⟨filled_inv_of .big 1 1 7 [], by decide, by decide, by unfold InBounds; decide, by decide, by decide⟩

theorem witness_FillingThenReadingReturnsThePayload :
    (filled .big).Inv ∧ (0 : SlotField).toNat < (filled .big).cfg.numSlots ∧ ((filled .big).slot 0).state = .live ∧
    ((sixteen.length : Nat) : Int) = byteSize ((filled .big).slot 0) := ⟨filled_inv .big, by decide, by decide, by decide⟩

theorem witness_WordAndByteAccessesAgree :
    (ops (filled .big) 1 1 7).Inv ∧ (0 : SlotField).toNat < (ops (filled .big) 1 1 7).cfg.numSlots ∧
    ((ops (filled .big) 1 1 7).slot 0).state = .live ∧ InBounds (ops (filled .big) 1 1 7) 0 ∧
    ((sixteen.length : Nat) : Int) ≤ byteSize ((ops (filled .big) 1 1 7).slot 0) ∧
    sixteen[pixelAddress (ops (filled .big) 1 1 7) 0]? = some 0x0C ∧
    sixteen[pixelAddress (ops (filled .big) 1 1 7) 0 + 1]? = some 0x0D ∧
    sixteen[pixelAddress (ops (filled .big) 1 1 7) 0 + 2]? = some 0x0E ∧
    sixteen[pixelAddress (ops (filled .big) 1 1 7) 0 + 3]? = some 0x0F :=
  ⟨filled_inv_of .big 1 1 7 [], by decide, by decide, by unfold InBounds; decide, by decide, by decide, by decide, by decide, by decide⟩

/-- And the PBCREATE after the free succeeds on some operands. -/
theorem witness_AfterAFreeEveryAccessRaisesDisposed :
    (filled .big).Inv ∧ (0 : SlotField).toNat < (filled .big).cfg.numSlots ∧
    ∃ t u, exec (.pbfree 0) (filled .big) = .next t ∧
      exec (.pbcreate 0) { t with a0 := 2, a1 := 2, allocOk := true } = .next u ∧ u.code = .ok :=
  ⟨filled_inv .big, by decide, _, _, rfl, rfl, rfl⟩

theorem witness_FreeingTwiceReleasesOnce :
    (filled .big).Inv ∧ (0 : SlotField).toNat < (filled .big).cfg.numSlots ∧ ((filled .big).slot 0).state = .live :=
  ⟨filled_inv .big, by decide, by decide⟩

end Sys2Proof.Tests
end

/-! ## The state and its registers (10_state.md): the facts its statements need, then the statements -/

namespace Sys2Proof.Machine

/-! ### What the two ends of a command say of each piece of state -/

/-- A command that raised has set STICKY (10_state.md R26). -/
theorem Ends.sticky_of_error {i : Instr} {s t : State} (h : Ends i s t) (ht : t.code ≠ .ok) : t.sticky = true := by
  rcases h with ⟨c, -, rfl⟩ | ⟨u, out, rfl, -, -⟩
  · rfl
  · exact absurd rfl ht

/-- No command clears STICKY. -/
theorem Ends.sticky_stays {i : Instr} {s t : State} (h : Ends i s t) (hs : s.sticky = true) : t.sticky = true := by
  rcases h with ⟨c, -, rfl⟩ | ⟨u, out, rfl, hu, -⟩
  · rfl
  · exact hu.sticky.trans hs

theorem Ends.cfg {i : Instr} {s t : State} (h : Ends i s t) : t.cfg = s.cfg := by
  rcases h with ⟨c, -, rfl⟩ | ⟨u, out, rfl, hu, -⟩
  · rfl
  · exact hu.cfg

theorem Ends.operands {i : Instr} {s t : State} (h : Ends i s t) : t.a0 = s.a0 ∧ t.a1 = s.a1 ∧ t.a2 = s.a2 := by
  rcases h with ⟨c, -, rfl⟩ | ⟨u, out, rfl, hu, -⟩
  · exact ⟨rfl, rfl, rfl⟩
  · exact ⟨hu.a0, hu.a1, hu.a2⟩

/-- R0 changes only by a success of a command whose rule names it (10_state.md R21). -/
theorem Ends.r0_written {i : Instr} {s t : State} (h : Ends i s t) (hne : t.r0 ≠ s.r0) : writesR0 i = true ∧ t.code = .ok := by
  rcases h with ⟨c, -, rfl⟩ | ⟨u, out, rfl, hu, -⟩
  · exact absurd rfl hne
  · exact ⟨Bool.eq_true_of_not_eq_false fun hw => hne (hu.r0 hw), rfl⟩

/-- R1 changes only by a success of a command whose rule names it (10_state.md R21). -/
theorem Ends.r1_written {i : Instr} {s t : State} (h : Ends i s t) (hne : t.r1 ≠ s.r1) : writesR1 i = true ∧ t.code = .ok := by
  rcases h with ⟨c, -, rfl⟩ | ⟨u, out, rfl, hu, -⟩
  · exact absurd rfl hne
  · exact ⟨Bool.eq_true_of_not_eq_false fun hw => hne (hu.r1 hw), rfl⟩

/-! ### What a host write off CMD leaves alone -/

/-- The frame of a host write: all but the operand registers. -/
theorem writeWindow_frame (off : Nat) (v : Dword) (s : State) :
    ∃ x y z, writeWindow off v s = { s with a0 := x, a1 := y, a2 := z } := by
  rcases writeWindow_cases off v s with h | ⟨-, h⟩ | ⟨-, h⟩ | ⟨-, h⟩ <;> exact ⟨_, _, _, h⟩

@[simp] theorem writeWindow_code (off : Nat) (v : Dword) (s : State) : (writeWindow off v s).code = s.code := by
  obtain ⟨x, y, z, h⟩ := writeWindow_frame off v s
  rw [h]

@[simp] theorem writeWindow_sticky (off : Nat) (v : Dword) (s : State) : (writeWindow off v s).sticky = s.sticky := by
  obtain ⟨x, y, z, h⟩ := writeWindow_frame off v s
  rw [h]

@[simp] theorem writeWindow_cfg (off : Nat) (v : Dword) (s : State) : (writeWindow off v s).cfg = s.cfg := by
  obtain ⟨x, y, z, h⟩ := writeWindow_frame off v s
  rw [h]

/-- A host write to an offset that is neither CMD's nor an operand register's is ignored (10_state.md R28). -/
theorem step_of_ignored_write {s : State} {off : Nat} {v : Dword} {p : List Byte} {ok : Bool} {rest : List HostAction}
    (hp : s.pending = .write off v p ok :: rest) (h : off ≠ 0 ∧ off ≠ 0x10 ∧ off ≠ 0x18 ∧ off ≠ 0x20) :
    step s = .next { s with pending := rest } := by
  obtain ⟨h0, ha0, ha1, ha2⟩ := h
  rw [step_of_write hp h0, writeWindow, if_neg ha0, if_neg ha1, if_neg ha2]

/-! ### What every step keeps -/

/-- No step but reset clears STICKY (10_state.md R26). -/
theorem step_keeps_sticky {s t : State} (h : step s = .next t) (hs : s.sticky = true)
    (hr : ∀ rest, s.pending ≠ .reset :: rest) : t.sticky = true := by
  cases step_cases h with
  | idle hp ht => exact ht ▸ hs
  | reset rest hp ht => exact absurd hp (hr rest)
  | read off rest hp ht => simpa [ht] using hs
  | write off v p ok rest hp h0 ht => simpa [ht] using hs
  | bad v p ok rest hp hd ht => simp [ht]
  | command v p ok rest i hp hd ht => exact (ends_of_exec ht).sticky_stays hs

/-- No step changes the configuration (10_state.md R27, R36). -/
theorem step_keeps_cfg {s t : State} (h : step s = .next t) : t.cfg = s.cfg := by
  cases step_cases h with
  | idle hp ht => rw [ht]
  | reset rest hp ht => simp [ht]
  | read off rest hp ht => simp [ht]
  | write off v p ok rest hp h0 ht => simp [ht]
  | bad v p ok rest hp hd ht => simp [ht]
  | command v p ok rest i hp hd ht => exact (ends_of_exec ht).cfg

/-- A step that is neither a command nor reset keeps both fields of STATUS (10_state.md R25, R26). -/
theorem step_keeps_status {s t : State} (h : step s = .next t) (hc : ∀ v p ok rest, s.pending ≠ .write 0x00 v p ok :: rest)
    (hr : ∀ rest, s.pending ≠ .reset :: rest) : t.code = s.code ∧ t.sticky = s.sticky := by
  cases step_cases h with
  | idle hp ht => simp [ht]
  | reset rest hp ht => exact absurd hp (hr rest)
  | read off rest hp ht => simp [ht]
  | write off v p ok rest hp h0 ht => simp [ht]
  | bad v p ok rest hp hd ht => exact absurd hp (hc v p ok rest)
  | command v p ok rest i hp hd ht => exact absurd hp (hc v p ok rest)

/-! ### What a command reads -/

/-- `s` and `s'` agree on everything command `i` reads: its operands, ENDIAN, REGISTRY and its payload, and for a PBU command also
its slot, the whole configuration and the ALLOC_OK draw (30_encoding.md R73, R74; 40_codec.md R100; 41_pixel.md R140). -/
structure SameInputs (i : Instr) (s s' : State) : Prop where
  a0 : s'.a0 = s.a0
  a1 : s'.a1 = s.a1
  a2 : s'.a2 = s.a2
  endian : s'.cfg.endian = s.cfg.endian
  registry : s'.cfg.registry = s.cfg.registry
  payload : s'.payload = s.payload
  pbu : ∀ n, i.slot? = some n → s'.slot n = s.slot n ∧ s'.cfg = s.cfg ∧ s'.allocOk = s.allocOk

/-- `t` from `s` and `t'` from `s'` end command `i` alike: both raise the same error, or both succeed with the same output and the
same values in the result registers its rule names. -/
def EndAlike (i : Instr) (s s' t t' : State) : Prop :=
  (∃ c, c ≠ .ok ∧ t = s.raise c ∧ t' = s'.raise c) ∨
    ∃ (u u' : State) (out : List Byte), t = u.succeed out ∧ t' = u'.succeed out ∧
      (writesR0 i = true → u'.r0 = u.r0) ∧ (writesR1 i = true → u'.r1 = u.r1)

theorem EndAlike.raise (i : Instr) (s s' : State) {c : Code} (h : c ≠ .ok) : EndAlike i s s' (s.raise c) (s'.raise c) :=
  .inl ⟨c, h, rfl, rfl⟩

theorem EndAlike.succeed {i : Instr} (s s' : State) {u u' : State} (out : List Byte) (h0 : writesR0 i = true → u'.r0 = u.r0)
    (h1 : writesR1 i = true → u'.r1 = u.r1) : EndAlike i s s' (u.succeed out) (u'.succeed out) :=
  .inr ⟨u, u', out, rfl, rfl, h0, h1⟩

/-- Ending alike is what the host sees of it: the same CODE, and on success the same results. -/
theorem EndAlike.results {i : Instr} {s s' t t' : State} (h : EndAlike i s s' t t') :
    t'.code = t.code ∧ (writesR0 i = true → t.code = .ok → t'.r0 = t.r0) ∧
      (writesR1 i = true → t.code = .ok → t'.r1 = t.r1) := by
  rcases h with ⟨c, hc, rfl, rfl⟩ | ⟨u, u', out, rfl, rfl, h0, h1⟩
  · exact ⟨rfl, fun _ hk => absurd hk hc, fun _ hk => absurd hk hc⟩
  · exact ⟨rfl, fun hw _ => h0 hw, fun hw _ => h1 hw⟩

/-- A test that both starts pass or fail together. -/
theorem EndAlike.ite {i : Instr} {s s' a a' b b' : State} {p : Prop} [Decidable p] (ha : EndAlike i s s' a a')
    (hb : EndAlike i s s' b b') : EndAlike i s s' (if p then a else b) (if p then a' else b') := by
  split
  · exact ha
  · exact hb

/-- The test for a LIVE slot, of two starts alike in that slot (60_exceptions.md R195). -/
theorem EndAlike.onLive {i : Instr} {s s' : State} {n : SlotField} {t t' : State} (hs : s'.slot n = s.slot n)
    (h : EndAlike i s s' t t') : EndAlike i s s' (s.onLive n t) (s'.onLive n t') := by
  unfold State.onLive
  rw [hs]
  exact EndAlike.ite h (EndAlike.raise i s s' (by decide))

/-- The tests of 30_encoding.md R78 read nothing else. -/
theorem SameInputs.commandLegal_eq {i : Instr} {s s' : State} (h : SameInputs i s s') : commandLegal i s' = commandLegal i s := by
  unfold commandLegal Instr.wellFormed
  rw [h.payload]
  cases hi : i.slot? with
  | none => rfl
  | some n =>
    obtain ⟨-, hcfg, -⟩ := h.pbu n hi
    rw [hcfg]

/-- The effects read nothing else: every test goes the same way, and what is written to R0 and R1 is the same. -/
theorem effectOf_alike {i : Instr} {s s' : State} (h : SameInputs i s s') : EndAlike i s s' (effectOf i s) (effectOf i s') := by
  obtain ⟨h0, h1, h2, he, hr, hp, hpbu⟩ := h
  cases i with
  | fourcc =>
    simp only [effectOf, fourccEffect, State.opU64, State.op32, State.reg, h0, h1, h2, he]
    split
    · exact EndAlike.raise _ s s' (by decide)
    · exact EndAlike.succeed s s' [] (fun _ => rfl) nofun
  | mkid =>
    simp only [effectOf, mkidEffect, State.op32, State.reg, h0]
    exact EndAlike.succeed s s' [] (fun _ => rfl) (fun _ => rfl)
  | mkidfcc =>
    simp only [effectOf, mkidfccEffect, State.opU64, State.op32, State.reg, h0, h1, h2, he]
    split
    · exact EndAlike.raise _ s s' (by decide)
    · exact EndAlike.succeed s s' [] (fun _ => rfl) (fun _ => rfl)
  | pack2 =>
    simp only [effectOf, pack2Effect, State.op32, State.reg, h0, h1]
    exact EndAlike.succeed s s' [] (fun _ => rfl) nofun
  | unpack2 =>
    simp only [effectOf, unpack2Effect, State.opHigh32, State.op32, State.reg, h0]
    exact EndAlike.succeed s s' [] (fun _ => rfl) (fun _ => rfl)
  | t2ms =>
    simp only [effectOf, t2msEffect, State.opS64, State.reg, h0]
    exact EndAlike.succeed s s' [] (fun _ => rfl) nofun
  | ms2t =>
    simp only [effectOf, ms2tEffect, State.reg, h0]
    split
    · exact EndAlike.raise _ s s' (by decide)
    · exact EndAlike.succeed s s' [] (fun _ => rfl) nofun
  | idfor =>
    simp only [effectOf, idforEffect, State.op32, State.reg, h0, hr]
    split
    · exact EndAlike.raise _ s s' (by decide)
    · exact EndAlike.succeed s s' [] (fun _ => rfl) (fun _ => rfl)
  | pbcreate n =>
    obtain ⟨hsl, hcfg, hok⟩ := hpbu n rfl
    simp only [effectOf, pbcreateEffect, State.opS32, State.op32, State.reg, h0, h1, hsl, hcfg, hok]
    refine EndAlike.ite (EndAlike.raise _ s s' (by decide)) ?_
    refine EndAlike.ite (EndAlike.raise _ s s' (by decide)) ?_
    refine EndAlike.ite (EndAlike.raise _ s s' (by decide)) ?_
    refine EndAlike.ite (EndAlike.raise _ s s' (by decide)) ?_
    exact EndAlike.succeed s s' [] nofun nofun
  | pbget n =>
    obtain ⟨hsl, -, -⟩ := hpbu n rfl
    refine EndAlike.onLive hsl ?_
    simp only [State.opS32, State.op32, State.reg, h0, h1, he, hsl]
    split
    · exact EndAlike.raise _ s s' (by decide)
    · exact EndAlike.succeed s s' [] (fun _ => rfl) nofun
  | pbset n =>
    obtain ⟨hsl, -, -⟩ := hpbu n rfl
    refine EndAlike.onLive hsl ?_
    simp only [State.opS32, State.op32, State.reg, h0, h1, he, hsl]
    split
    · exact EndAlike.raise _ s s' (by decide)
    · exact EndAlike.succeed s s' [] nofun nofun
  | pbalpha n =>
    obtain ⟨hsl, -, -⟩ := hpbu n rfl
    exact EndAlike.onLive hsl (EndAlike.succeed s s' [] nofun nofun)
  | pbfill n =>
    obtain ⟨hsl, -, -⟩ := hpbu n rfl
    refine EndAlike.onLive hsl ?_
    simp only [hsl, hp]
    exact EndAlike.ite (EndAlike.raise _ s s' (by decide)) (EndAlike.succeed s s' [] nofun nofun)
  | pbread n =>
    obtain ⟨hsl, -, -⟩ := hpbu n rfl
    refine EndAlike.onLive hsl ?_
    rw [hsl]
    exact EndAlike.succeed s s' _ nofun nofun
  | pbfree n => exact EndAlike.succeed s s' [] nofun nofun
  | pbdim n =>
    obtain ⟨hsl, -, -⟩ := hpbu n rfl
    simp only [effectOf, pbdimEffect, hsl]
    exact EndAlike.succeed s s' [] (fun _ => rfl) (fun _ => rfl)
  | pbsize n =>
    obtain ⟨hsl, -, -⟩ := hpbu n rfl
    simp only [effectOf, pbsizeEffect, hsl]
    exact EndAlike.succeed s s' [] (fun _ => rfl) (fun _ => rfl)
  | pbstride n =>
    obtain ⟨hsl, -, -⟩ := hpbu n rfl
    simp only [effectOf, pbstrideEffect, hsl]
    exact EndAlike.succeed s s' [] (fun _ => rfl) nofun

/-- Commands started alike end alike, whatever the rest of the state holds. -/
theorem exec_alike {i : Instr} {s s' : State} (h : SameInputs i s s') :
    ∃ t t', exec i s = .next t ∧ exec i s' = .next t' ∧ EndAlike i s s' t t' := by
  refine ⟨_, _, exec_next i s, exec_next i s', ?_⟩
  rw [h.commandLegal_eq]
  split
  · exact effectOf_alike h
  · exact EndAlike.raise i s s' (by decide)

/-- No command reads R0, R1 or STATUS.CODE (30_encoding.md R73; 10_state.md R21, R25). -/
theorem sameInputs_of_results (i : Instr) (s : State) (x y : Dword) (c : Code) :
    SameInputs i s { s with r0 := x, r1 := y, code := c } where
  a0 := rfl
  a1 := rfl
  a2 := rfl
  endian := rfl
  registry := rfl
  payload := rfl
  pbu _ _ := ⟨rfl, rfl, rfl⟩

/-! ### The fields of STATUS and CFG -/

/-- The layout of STATUS (10_state.md R24), for every code and either STICKY. -/
theorem statusOf_fields (c : Code) (b : Bool) :
    (statusOf c b).extractLsb' 0 4 = c.number ∧ (statusOf c b).extractLsb' 4 4 = 0#4 ∧ (statusOf c b).getLsbD 8 = b ∧
      (statusOf c b).extractLsb' 9 23 = 0#23 := by
  unfold statusOf
  refine ⟨?_, ?_, ?_, ?_⟩
  · rw [BitVec.extractLsb'_append_eq_of_add_le (by decide), BitVec.extractLsb'_eq_self]
  · rw [BitVec.extractLsb'_append_eq_of_le (by decide), BitVec.extractLsb'_append_eq_of_add_le (by decide),
      BitVec.extractLsb'_eq_self]
  · simp only [BitVec.getLsbD_append]
    simp
  · rw [BitVec.extractLsb'_append_eq_of_le (by decide), BitVec.extractLsb'_append_eq_of_le (by decide),
      BitVec.extractLsb'_append_eq_of_le (by decide), BitVec.extractLsb'_eq_self]

/-- The layout of CFG (10_state.md R27); SLOTS_M1 is still modulo 2^8, since no range is assumed of NUM_SLOTS. -/
theorem cfgWord_fields (c : Config) :
    (cfgWord c).getLsbD 0 = decide (c.endian = .big) ∧ (cfgWord c).extractLsb' 1 7 = 0#7 ∧
      (cfgWord c).extractLsb' 8 8 = BitVec.ofNat 8 (c.numSlots - 1) ∧ (cfgWord c).extractLsb' 16 16 = 0#16 := by
  unfold cfgWord
  refine ⟨?_, ?_, ?_, ?_⟩
  · simp only [BitVec.getLsbD_append]
    simp
  · rw [BitVec.extractLsb'_append_eq_of_le (by decide), BitVec.extractLsb'_append_eq_of_add_le (by decide),
      BitVec.extractLsb'_eq_self]
  · rw [BitVec.extractLsb'_append_eq_of_le (by decide), BitVec.extractLsb'_append_eq_of_le (by decide),
      BitVec.extractLsb'_append_eq_of_add_le (by decide), BitVec.extractLsb'_eq_self]
  · rw [BitVec.extractLsb'_append_eq_of_le (by decide), BitVec.extractLsb'_append_eq_of_le (by decide),
      BitVec.extractLsb'_append_eq_of_le (by decide), BitVec.extractLsb'_eq_self]

/-! ### The statements -/

/-- Settles O8: from the two ends of a command, the frame of a step, and reset. -/
theorem stickyIsSetByErrorsAndClearedOnlyByReset : Obligations.StickyIsSetByErrorsAndClearedOnlyByReset :=
  ⟨fun _ _ _ h ht => (ends_of_exec h).sticky_of_error ht, fun _ _ h hs hr => step_keeps_sticky h hs hr,
    fun _ _ hp => ⟨_, step_of_reset hp, rfl⟩⟩

/-- Settles O10: the frame is the two ends of a command; the independence is `exec_alike`, since no command reads R0 or R1. -/
theorem resultRegistersAreWrittenOnlyAsTheRuleNames : Obligations.ResultRegistersAreWrittenOnlyAsTheRuleNames := by
  intro i s t h
  have he : Ends i s t := ends_of_exec h
  obtain ⟨ha0, ha1, ha2⟩ := he.operands
  refine ⟨he.r0_written, he.r1_written, ha0, ha1, ha2, fun x y => ?_⟩
  obtain ⟨u, t', hu, ht', halike⟩ := exec_alike (sameInputs_of_results i s x y s.code)
  obtain rfl : u = t := by rw [hu] at h; exact Host.Outcome.next.inj h
  exact ⟨t', ht', halike.results⟩

/-- Settles O1. -/
theorem resetLeavesTheSpecsValues : Obligations.ResetLeavesTheSpecsValues := by
  rintro c s rfl
  have hslot : ∀ n, n < c.numSlots → (State.resetWith c).slots[n]? = some Slot.unused := fun n hn => by
    rw [State.resetWith_slots, List.getElem?_replicate, if_pos hn]
  exact ⟨rfl, rfl, rfl, rfl, rfl, rfl, rfl, List.length_replicate, fun n hn => ⟨_, hslot n hn, rfl, rfl, rfl, rfl⟩, rfl⟩

/-- Settles O15: that every command writes CODE, whatever it held, is `exec_alike`, since no command reads CODE. -/
theorem statusRegisterHasItsFields : Obligations.StatusRegisterHasItsFields := by
  refine ⟨fun s => statusOf_fields s.code s.sticky, rfl, fun _ _ _ _ _ hp => step_of_ignored_write hp (by decide),
    fun _ _ h hc hr => step_keeps_status h hc hr, fun i s c => ?_⟩
  obtain ⟨t, t', ht, ht', halike⟩ := exec_alike (sameInputs_of_results i s s.r0 s.r1 c)
  exact ⟨t, t', ht, ht', halike.results.1⟩

/-- Settles O16: NUM_SLOTS - 1 fits its eight bits because NUM_SLOTS is at most 256. -/
theorem configurationRegisterNeverChanges : Obligations.ConfigurationRegisterNeverChanges := by
  refine ⟨fun c hc => ?_, fun _ _ _ _ _ hp => step_of_ignored_write hp (by decide), fun _ _ h => step_keeps_cfg h⟩
  obtain ⟨hendian, hzero, hslots, hhigh⟩ := cfgWord_fields c
  obtain ⟨-, hmax, -, -⟩ := hc
  refine ⟨hendian, hzero, ?_, hhigh⟩
  rw [hslots, BitVec.toNat_ofNat, Nat.mod_eq_of_lt (by omega)]

end Sys2Proof.Machine

/-! ## Memory after a release (20_memory.md R64): the facts its statement needs, then the statement -/

namespace Sys2Proof.Machine

/-! ### The error report, in the words of the statements -/

/-- The error report is the one the statements name (60_exceptions.md R192). -/
theorem State.raise_eq_reported (s : State) (c : Code) : s.raise c = Claim.reported s c := by
  have hstatus : statusOf c true = 0x100#32 ||| c.number.setWidth 32 := by cases c <;> decide
  rw [State.raise, hstatus]
  rfl

/-! ### A slot with no buffer -/

/-- Whether a command reads or writes the bytes of its slot, so that it needs a LIVE one (20_memory.md R64; 60_exceptions.md R195). -/
def touchesMemory : Instr → Bool
  | .pbget _ | .pbset _ | .pbalpha _ | .pbfill _ | .pbread _ => true
  | .fourcc | .mkid | .mkidfcc | .pack2 | .unpack2 | .t2ms | .ms2t | .idfor => false
  | .pbcreate _ | .pbfree _ | .pbdim _ | .pbsize _ | .pbstride _ => false

theorem State.onLive_of_not_live {s : State} {n : SlotField} (h : ¬ (s.slot n).isLive) (t : State) :
    s.onLive n t = s.raise .disposed := if_neg h

/-- Every command that touches pixel memory tests its slot first. -/
theorem effectOf_of_not_live {i : Instr} {n : SlotField} {s : State} (ht : touchesMemory i = true) (hi : i.slot? = some n)
    (h : ¬ (s.slot n).isLive) : effectOf i s = s.raise .disposed := by
  cases i with
  | pbget _ | pbset _ | pbalpha _ | pbfill _ | pbread _ =>
    obtain rfl := Option.some.inj hi
    exact State.onLive_of_not_live h _
  | fourcc | mkid | mkidfcc | pack2 | unpack2 | t2ms | ms2t | idfor | pbcreate _ | pbfree _ | pbdim _ | pbsize _ | pbstride _ =>
    cases ht

/-- On a slot of the table with no buffer, a command that touches pixel memory reports Disposed, whatever it is given. -/
theorem exec_of_not_live {i : Instr} {n : SlotField} {s : State} (ht : touchesMemory i = true) (hi : i.slot? = some n)
    (hn : n.toNat < s.cfg.numSlots) (hp : i.takesPayload = true ∨ s.payload = []) (h : ¬ (s.slot n).isLive) :
    exec i s = .next (Claim.reported s .disposed) := by
  rw [exec_legal (commandLegal_of_pbu hi hn hp), effectOf_of_not_live ht hi h, State.raise_eq_reported]

/-! ### What PBFREE leaves -/

theorem pbfreeEffect_of_live {n : SlotField} {s : State} (h : (s.slot n).isLive) :
    pbfreeEffect n s = (s.setSlot n Slot.released).succeed [] := by rw [pbfreeEffect, if_pos h]

theorem pbfreeEffect_of_not_live {n : SlotField} {s : State} (h : ¬ (s.slot n).isLive) :
    pbfreeEffect n s = s.succeed [] := by rw [pbfreeEffect, if_neg h]

@[simp] theorem pbfreeEffect_payload (n : SlotField) (s : State) : (pbfreeEffect n s).payload = [] := rfl

@[simp] theorem pbfreeEffect_cfg (n : SlotField) (s : State) : (pbfreeEffect n s).cfg = s.cfg := by
  by_cases h : (s.slot n).isLive
  · rw [pbfreeEffect_of_live h]; rfl
  · rw [pbfreeEffect_of_not_live h]; rfl

@[simp] theorem pbfreeEffect_draws (n : SlotField) (s : State) : (pbfreeEffect n s).draws = s.draws := by
  by_cases h : (s.slot n).isLive
  · rw [pbfreeEffect_of_live h]; rfl
  · rw [pbfreeEffect_of_not_live h]; rfl

@[simp] theorem pbfreeEffect_slots_length (n : SlotField) (s : State) : (pbfreeEffect n s).slots.length = s.slots.length := by
  by_cases h : (s.slot n).isLive
  · rw [pbfreeEffect_of_live h]; exact List.length_set
  · rw [pbfreeEffect_of_not_live h]; rfl

/-- The slot released is not LIVE, whether or not it was before (41_pixel.md R147). -/
theorem pbfreeEffect_not_live {n : SlotField} {s : State} (hn : n.toNat < s.slots.length) :
    ¬ ((pbfreeEffect n s).slot n).isLive := by
  by_cases h : (s.slot n).isLive
  · rw [pbfreeEffect_of_live h, State.slot_succeed, State.slot_setSlot_same s n _ hn]
    decide
  · rwa [pbfreeEffect_of_not_live h, State.slot_succeed]

theorem pbfreeEffect_slot_other {m n : SlotField} (s : State) (hmn : m ≠ n) : (pbfreeEffect n s).slot m = s.slot m := by
  by_cases h : (s.slot n).isLive
  · rw [pbfreeEffect_of_live h, State.slot_succeed, State.slot_setSlot_other s _ hmn]
  · rw [pbfreeEffect_of_not_live h, State.slot_succeed]

/-- The slots still LIVE after PBFREE were LIVE before, so their streams are already drawn. -/
theorem pbfreeEffect_drawn {m n : SlotField} {s : State} (hs : s.Inv) (hn : n.toNat < s.cfg.numSlots)
    (hm : ((pbfreeEffect n s).slot m).isLive) : ((pbfreeEffect n s).slot m).fresh < s.draws := by
  have hmn : m ≠ n := by
    rintro rfl
    exact pbfreeEffect_not_live (hs.table ▸ hn) hm
  rw [pbfreeEffect_slot_other s hmn] at hm ⊢
  exact (hs.slots m).drawn hm

/-! ### What PBCREATE leaves where it succeeds -/

/-- A PBCREATE that reports OK has allocated: each of its tests that fails raises an error (41_pixel.md R141). -/
theorem pbcreateEffect_of_ok {n : SlotField} {s : State} (h : (pbcreateEffect n s).code = .ok) :
    pbcreateEffect n s = (s.allocate n (s.op32 .a0) (s.op32 .a1)).succeed [] := by
  unfold pbcreateEffect at h ⊢
  split at h
  · cases h
  rw [if_neg ‹_›]
  split at h
  · cases h
  rw [if_neg ‹_›]
  split at h
  · cases h
  rw [if_neg ‹_›]
  split at h
  · cases h
  rw [if_neg ‹_›]

/-- A PBCREATE command that reports OK passed the tests of R78 and has allocated. -/
theorem exec_pbcreate_of_ok {n : SlotField} {s u : State} (h : exec (.pbcreate n) s = .next u) (hu : u.code = .ok) :
    u = (s.allocate n (s.op32 .a0) (s.op32 .a1)).succeed [] := by
  rw [exec_next] at h
  obtain rfl := Host.Outcome.next.inj h
  split at hu
  · rw [if_pos ‹_›]
    exact pbcreateEffect_of_ok hu
  · cases hu

/-- Nothing of a new buffer is written, so that each of its bytes is a draw of its stream (20_memory.md R52). -/
@[simp] theorem Slot.byte_allocated (w h : BitVec 32) (d a : Nat) : (Slot.allocated w h d).byte a = Config.initByte d a := rfl

/-! ### The statement -/

/-- Settles O55: PBFREE leaves the slot not LIVE, which every access tests first; a buffer created then has the next stream, and the
streams of the LIVE slots are drawn before it. -/
theorem afterAFreeEveryAccessRaisesDisposed : Obligations.AfterAFreeEveryAccessRaisesDisposed := by
  intro s n hs hn
  have htable : n.toNat < s.slots.length := hs.table ▸ hn
  have hgone : ¬ ((pbfreeEffect n s).slot n).isLive := pbfreeEffect_not_live htable
  have hslot : n.toNat < (pbfreeEffect n s).cfg.numSlots := by rwa [pbfreeEffect_cfg]
  refine ⟨pbfreeEffect n s, exec_legal (commandLegal_of_pbu rfl hn (.inr hs.port)), fun b0 b1 b2 i hi => ?_, fun p => ?_,
    fun b0 b1 ok u hu hok => ⟨fun a => ?_, fun m hm => ?_⟩⟩
  · have htouches : touchesMemory i = true ∧ i.slot? = some n := by
      simp only [List.mem_cons, List.not_mem_nil, or_false] at hi
      rcases hi with rfl | rfl | rfl | rfl <;> exact ⟨rfl, rfl⟩
    obtain ⟨ht, hi⟩ := htouches
    exact exec_of_not_live ht hi hslot (.inr (pbfreeEffect_payload n s)) hgone
  · exact exec_of_not_live rfl rfl hslot (.inl rfl) hgone
  · rw [exec_pbcreate_of_ok hu hok, State.slot_succeed, State.slot_allocate_same _ _ _ _ (by simpa using htable)]
    exact Slot.byte_allocated _ _ _ a
  · rw [pbfreeEffect_draws]
    exact (pbfreeEffect_drawn hs hn hm).ne

end Sys2Proof.Machine

/-! ## The opcode map (30_encoding.md R76): the decoder and the encoder, then the statement -/

namespace Sys2Proof.Machine

/-! ### Words of commands -/

/-- The decoder reads a command back from its word; a PBU opcode is no BCU opcode, so its slot may be any (30_encoding.md R76, R77). -/
theorem decode_encode (i : Instr) : decode (encode i) = some i := by
  cases i with
  | fourcc | mkid | mkidfcc | pack2 | unpack2 | t2ms | ms2t | idfor => rfl
  | pbcreate n | pbget n | pbset n | pbalpha n | pbfill n | pbread n | pbfree n | pbdim n | pbsize n | pbstride n =>
    exact Laws.WordFields.decode_pbu n rfl

/-- A slot shifted above an opcode is the word of the two fields, RSVD zero (30_encoding.md R70). -/
theorem shifted_slot_or_opcode (n : SlotField) (o : BitVec 8) :
    n.setWidth 32 <<< 8 ||| o.setWidth 32 = 0#16 ++ n ++ o := by
  apply BitVec.eq_of_getLsbD_eq
  intro k hk
  simp only [BitVec.getLsbD_or, BitVec.getLsbD_shiftLeft, BitVec.getLsbD_setWidth, BitVec.getLsbD_append, BitVec.getLsbD_zero]
  rcases Nat.lt_or_ge k 8 with hlow | hhigh
  · simp [hlow, hk]
  · have hnotlow : ¬ k < 8 := Nat.not_lt.mpr hhigh
    have habove : o.getLsbD k = false := BitVec.getLsbD_of_ge o k hhigh
    have hshift : k - 8 < 32 := by omega
    rcases Nat.lt_or_ge (k - 8) 8 with hmid | hrsvd
    · simp [hk, hnotlow, habove, hshift, hmid]
    · simp [hk, hnotlow, habove, hshift, hrsvd]

/-- A PBU command decodes from its slot and its opcode as the statement writes the word. -/
theorem decode_shifted_slot {i : Instr} {n : SlotField} (hi : i.slot? = some n) :
    decode (n.setWidth 32 <<< 8 ||| (opcodeOf i).setWidth 32) = some i := by
  have hslot : slotBitsOf i = n := by rw [slotBitsOf, hi]
  rw [shifted_slot_or_opcode, ← hslot]
  exact decode_encode i

/-! ### Words of no command -/

theorem opcodeOf_of_bcuOfOpcode {o : BitVec 8} {i : Instr} (h : bcuOfOpcode o = some i) : opcodeOf i = o := by
  unfold bcuOfOpcode at h
  split_ifs at h <;> cases h <;> symm <;> assumption

theorem opcodeOf_of_pbuOfOpcode {o : BitVec 8} {n : SlotField} {i : Instr} (h : pbuOfOpcode o n = some i) : opcodeOf i = o := by
  unfold pbuOfOpcode at h
  split_ifs at h <;> cases h <;> symm <;> assumption

/-- A word decodes only to a command of its own opcode. -/
theorem opcodeOf_of_decode {w : Word} {i : Instr} (h : decode w = some i) : opcodeOf i = opcodeField w := by
  unfold decode at h
  split at h
  · cases h
  split at h
  · rename_i hb
    split at h
    · cases h
    · cases h
      exact opcodeOf_of_bcuOfOpcode hb
  · exact opcodeOf_of_pbuOfOpcode h

/-- Every command's opcode is one of the map's two ranges (30_encoding.md R76). -/
theorem opcodeOf_range (i : Instr) :
    (0x01 ≤ (opcodeOf i).toNat ∧ (opcodeOf i).toNat ≤ 0x08) ∨ (0x10 ≤ (opcodeOf i).toNat ∧ (opcodeOf i).toNat ≤ 0x19) := by
  cases i with
  | fourcc | mkid | mkidfcc | pack2 | unpack2 | t2ms | ms2t | idfor => left; decide
  | pbcreate _ | pbget _ | pbset _ | pbalpha _ | pbfill _ | pbread _ | pbfree _ | pbdim _ | pbsize _ | pbstride _ =>
    right; simp [opcodeOf]

/-- No word of a reserved opcode decodes (30_encoding.md R76, R78). -/
theorem decode_eq_none_of_reserved {w : Word} (h : (opcodeField w).toNat = 0x00 ∨
    (0x09 ≤ (opcodeField w).toNat ∧ (opcodeField w).toNat ≤ 0x0F) ∨ 0x1A ≤ (opcodeField w).toNat) : decode w = none := by
  refine Option.eq_none_iff_forall_ne_some.mpr fun i hi => ?_
  have hrange := opcodeOf_range i
  rw [opcodeOf_of_decode hi] at hrange
  omega

/-! ### The statement -/

/-- Settles O18: each word of the map is its command's encoding, which decodes back; a word that decodes has its command's opcode, and
no command has a reserved one. -/
theorem theOpcodeMapIsDecoded : Obligations.TheOpcodeMapIsDecoded := by
  refine ⟨decode_encode .fourcc, decode_encode .mkid, decode_encode .mkidfcc, decode_encode .pack2, decode_encode .unpack2,
    decode_encode .t2ms, decode_encode .ms2t, decode_encode .idfor, fun n => ?_, fun w hw => ?_⟩
  · exact ⟨decode_shifted_slot (i := .pbcreate n) rfl, decode_shifted_slot (i := .pbget n) rfl,
      decode_shifted_slot (i := .pbset n) rfl, decode_shifted_slot (i := .pbalpha n) rfl,
      decode_shifted_slot (i := .pbfill n) rfl, decode_shifted_slot (i := .pbread n) rfl,
      decode_shifted_slot (i := .pbfree n) rfl, decode_shifted_slot (i := .pbdim n) rfl,
      decode_shifted_slot (i := .pbsize n) rfl, decode_shifted_slot (i := .pbstride n) rfl⟩
  · exact decode_eq_none_of_reserved (hw.imp_left (congrArg BitVec.toNat))

end Sys2Proof.Machine

/-! ## The binary codec unit (40_codec.md): the facts its statements need, then the statements -/

namespace Sys2Proof.Machine

/-! ### A BCU command's start and its success report -/

/-- The success report is the one the statements name (60_exceptions.md R193). -/
theorem State.succeed_eq_completed (s : State) (out : List Byte) : s.succeed out = Claim.completed s out := by
  have hstatus : statusOf .ok s.sticky = if s.sticky then 0x100#32 else 0#32 := by cases s.sticky <;> decide
  rw [State.succeed, hstatus]
  rfl

/-- A BCU command with no payload passes the tests of 30_encoding.md R78. -/
theorem exec_bcu {i : Instr} {s : State} (hi : i.slot? = none) (hp : s.payload = []) : exec i s = .next (effectOf i s) :=
  exec_legal (commandLegal_of_bcu hi hp)

/-! ### FourCC values (40_codec.md R101) -/

/-- Each byte of the padded code is read from A1 or is a space; the cut of the byte count at 4 does not show below byte 4. -/
theorem fourccByte_operands (s : State) {k : Nat} (hk : k < 4) :
    fourccByte (s.op32 .a1) (s.opU64 .a2) k = Claim.codeByte s k := by
  have hlane : lane (s.op32 .a1) k = s.a1.extractLsb' (8 * k) 8 := by
    rw [lane, State.op32, State.reg_a1, BitVec.extractLsb'_extractLsb'_of_le (by omega)]
  have hcut : k < min (s.opU64 .a2) 4 ↔ k < s.a2.toNat := by
    rw [lt_min_iff, and_iff_left hk]
    rfl
  simp only [fourccByte, Claim.codeByte, hlane, hcut]
  rfl

/-- With a count of 1 to 4 the value is the padded code in ENDIAN order. -/
theorem fourccValue_of_count {s : State} (h : 1 ≤ s.a0.toNat ∧ s.a0.toNat ≤ 4) :
    fourccValue s.cfg.endian (s.opU64 .a0) (s.op32 .a1) (s.opU64 .a2) = some (Claim.codeWord s) := by
  have hcount : ¬ (s.opU64 .a0 = 0 ∨ 4 < s.opU64 .a0) := by
    rw [State.opU64, State.reg_a0]
    omega
  have hbytes : (List.range 4).map (fourccByte (s.op32 .a1) (s.opU64 .a2)) =
      [Claim.codeByte s 0, Claim.codeByte s 1, Claim.codeByte s 2, Claim.codeByte s 3] :=
    List.map_congr_left fun _ hk => fourccByte_operands s (List.mem_range.mp hk)
  rw [fourccValue, if_neg hcount, hbytes, fromBytes_four]
  rfl

/-- With any other count there is no value. -/
theorem fourccValue_of_bad_count {s : State} (h : s.a0.toNat = 0 ∨ 4 < s.a0.toNat) (e : Endian) (w : Word) (nb : Nat) :
    fourccValue e (s.opU64 .a0) w nb = none := if_pos h

/-- A 32-bit pattern zero-extended to a result register (30_encoding.md R75). -/
theorem zext64_eq_append (v : Word) : zext64 v = 0#32 ++ v :=
  BitVec.setWidth_eq_append (by decide)

/-! ### Format identifiers (40_codec.md R103 to R105) -/

theorem suffix_eq : suffix = 0x00000010800000AA00389B71#96 := by decide

/-- The bits of an identifier from 96 on are the variant's. -/
theorem buildId_extract_variant (v : Word) {start len : Nat} (h : 96 ≤ start) :
    (buildId v).extractLsb' start len = v.extractLsb' (start - 96) len :=
  BitVec.extractLsb'_append_eq_of_le h

/-- The bits of an identifier below 96 are the suffix's. -/
theorem buildId_extract_suffix (v : Word) {start len : Nat} (h : start + len ≤ 96) :
    (buildId v).extractLsb' start len = suffix.extractLsb' start len :=
  BitVec.extractLsb'_append_eq_of_add_le h

/-- The high half of an identifier, R0's (40_codec.md R104). -/
theorem buildId_high (v : Word) : (buildId v).extractLsb' 64 64 = v ++ 0x00000010#32 := by
  have hsplit : (buildId v).extractLsb' 64 64 = (buildId v).extractLsb' 96 32 ++ (buildId v).extractLsb' 64 32 :=
    (BitVec.extractLsb'_append_extractLsb'_eq_extractLsb' (start₁ := 64) (len₁ := 32) (len₂ := 32) rfl).symm
  rw [hsplit, buildId_extract_variant v (by decide), buildId_extract_suffix v (by decide), BitVec.extractLsb'_eq_self]
  rfl

/-- The low half of an identifier, R1's (40_codec.md R104). -/
theorem buildId_low (v : Word) : (buildId v).extractLsb' 0 64 = 0x800000AA00389B71#64 := by
  rw [buildId_extract_suffix v (by decide)]
  rfl

/-- What returning an identifier of BuildId writes (40_codec.md R104). -/
theorem State.returnId_buildId (s : State) (v : Word) :
    s.returnId (buildId v) = { s with r0 := v ++ 0x00000010#32, r1 := 0x800000AA00389B71#64 } := by
  rw [State.returnId, buildId_high, buildId_low]
  rfl

theorem idBytes_getElem? (id : Ident) {k : Nat} (hk : k < 16) : (idBytes id)[k]? = some (id.extractLsb' (120 - 8 * k) 8) := by
  simp [idBytes, hk]

/-- The serialization is the variant's four bytes, then the suffix's twelve, most significant first (40_codec.md R105). -/
theorem idBytes_buildId (v : Word) :
    idBytes (buildId v) = [v.extractLsb' 24 8, v.extractLsb' 16 8, v.extractLsb' 8 8, v.extractLsb' 0 8,
      0x00, 0x00, 0x00, 0x10, 0x80, 0x00, 0x00, 0xAA, 0x00, 0x38, 0x9B, 0x71] := by
  have hvariant : ∀ k ∈ List.range 4, (buildId v).extractLsb' (120 - 8 * k) 8 = v.extractLsb' (120 - 8 * k - 96) 8 :=
    fun k hk => buildId_extract_variant v (by have := List.mem_range.mp hk; omega)
  have hsuffix : ∀ k ∈ List.range' 4 12, (buildId v).extractLsb' (120 - 8 * k) 8 = suffix.extractLsb' (120 - 8 * k) 8 :=
    fun k hk => buildId_extract_suffix v (by have := List.mem_range'_1.mp hk; omega)
  have hsplit : List.range 16 = List.range 4 ++ List.range' 4 12 := rfl
  rw [idBytes, hsplit, List.map_append, List.map_congr_left hvariant, List.map_congr_left hsuffix]
  rfl

/-! ### Signed results -/

/-- The sign extension of a 32-bit value keeps its signed reading (30_encoding.md R75). -/
theorem sext64_toInt (v : Word) : (sext64 v).toInt = v.toInt :=
  BitVec.toInt_signExtend_of_le (by decide)

/-- The quotient of T2MS is no larger than its operand, so it fits 64 bits (40_codec.md R113). -/
theorem bits64_tdiv_toInt (v : Dword) : (bits64 (v.toInt.tdiv 10000)).toInt = v.toInt.tdiv 10000 := by
  have hlow := v.le_toInt
  have hhigh := v.toInt_lt
  have hquot : (v.toInt.tdiv 10000).natAbs = v.toInt.natAbs / 10000 := Int.natAbs_tdiv _ _
  exact BitVec.toInt_ofInt_eq_self (by decide) (by omega) (by omega)

/-! ### The registry (40_codec.md R116) -/

/-- A key the registry pairs with nothing is not found. -/
theorem registryLookup_eq_none {l : List (Word × Ident)} {d : Word} (h : ∀ id, (d, id) ∉ l) : registryLookup l d = none := by
  induction l with
  | nil => rfl
  | cons p rest ih =>
    obtain ⟨k, id⟩ := p
    have hne : d ≠ k := by
      rintro rfl
      exact h id List.mem_cons_self
    rw [registryLookup, if_neg hne]
    exact ih fun id' hmem => h id' (List.mem_cons_of_mem _ hmem)

/-- In a registry that holds no key twice, the lookup of a key finds the identifier paired with it. -/
theorem registryLookup_eq_some {l : List (Word × Ident)} {d : Word} {id : Ident} (hl : (l.map Prod.fst).Nodup)
    (h : (d, id) ∈ l) : registryLookup l d = some id := by
  induction l with
  | nil => cases h
  | cons p rest ih =>
    obtain ⟨k, id'⟩ := p
    obtain ⟨hfresh, hrest⟩ := List.nodup_cons.mp hl
    rcases List.mem_cons.mp h with heq | hmem
    · cases heq
      exact if_pos rfl
    · have hne : d ≠ k := by
        rintro rfl
        exact hfresh (List.mem_map.mpr ⟨_, hmem, rfl⟩)
      rw [registryLookup, if_neg hne]
      exact ih hrest hmem

/-! ### What a BCU command leaves alone -/

/-- A BCU command names no slot, so it changes none (40_codec.md R100). -/
theorem Ends.slots_of_bcu {i : Instr} {s t : State} (h : Ends i s t) (hi : i.slot? = none) : t.slots = s.slots := by
  rcases h with ⟨c, -, rfl⟩ | ⟨u, out, rfl, hu, -⟩
  · rfl
  · rcases hu.slots with hsame | ⟨-, n, sl, hn, -⟩
    · exact hsame
    · rw [hi] at hn
      cases hn

/-- What a BCU command reads: its operands, ENDIAN, REGISTRY and the payload it may not have (40_codec.md R100). -/
theorem sameInputs_of_bcu {i : Instr} {s s' : State} (hi : i.slot? = none) (h0 : s'.a0 = s.a0) (h1 : s'.a1 = s.a1)
    (h2 : s'.a2 = s.a2) (he : s'.cfg.endian = s.cfg.endian) (hr : s'.cfg.registry = s.cfg.registry)
    (hp : s'.payload = s.payload) : SameInputs i s s' :=
  ⟨h0, h1, h2, he, hr, hp, fun n hn => by rw [hi] at hn; cases hn⟩

/-! ### The statements -/

/-- Settles O24: the count alone decides whether there is a value, and the value is the padded code's. -/
theorem fourccPacksTheCodeInNativeOrder : Obligations.FourccPacksTheCodeInNativeOrder := by
  refine ⟨rfl, fun s hp => ⟨fun hcount => ?_, fun hbad => ?_⟩⟩
  · rw [exec_bcu rfl hp]
    simp only [effectOf, fourccEffect, fourccValue_of_count hcount, State.succeed_eq_completed, zext64_eq_append]
    rfl
  · rw [exec_bcu rfl hp]
    simp only [effectOf, fourccEffect, fourccValue_of_bad_count hbad, State.raise_eq_reported]

/-- Settles O26: the value is FOURCC's, and BuildId puts it above the suffix. -/
theorem mkidfccBuildsTheIdentifierOfTheCode : Obligations.MkidfccBuildsTheIdentifierOfTheCode := by
  refine ⟨rfl, fun s hp => ⟨fun hcount => ?_, fun hbad => ?_⟩⟩
  · rw [exec_bcu rfl hp]
    simp only [effectOf, mkidfccEffect, fourccValue_of_count hcount, State.succeed_eq_completed, State.returnId_buildId]
  · rw [exec_bcu rfl hp]
    simp only [effectOf, mkidfccEffect, fourccValue_of_bad_count hbad, State.raise_eq_reported]

/-- Settles O37: where no key stands twice, the first pair of a key is its only one. -/
theorem idforLooksTheKeyUp : Obligations.IdforLooksTheKeyUp := by
  refine ⟨rfl, fun s hp hnodup => ⟨fun id hmem => ?_, fun hnone => ?_⟩⟩
  · have hfound : registryLookup s.cfg.registry (s.op32 .a0) = some id := registryLookup_eq_some hnodup hmem
    rw [exec_bcu rfl hp]
    simp only [effectOf, idforEffect, hfound, State.succeed_eq_completed]
    rfl
  · have hmissing : registryLookup s.cfg.registry (s.op32 .a0) = none := registryLookup_eq_none hnone
    rw [exec_bcu rfl hp]
    simp only [effectOf, idforEffect, hmissing, State.raise_eq_reported]

/-- Settles O38: commands started alike end alike, and the rest of the frame is the two ends of a command that names no slot. -/
theorem bcuResultsDependOnOperandsAndConfigurationAlone :
    Obligations.BcuResultsDependOnOperandsAndConfigurationAlone := by
  intro i s s' hi h0 h1 h2 he hr hp
  obtain ⟨t, t', ht, ht', halike⟩ := exec_alike (sameInputs_of_bcu hi h0 h1 h2 he hr hp)
  obtain ⟨hcode, hr0, hr1⟩ := halike.results
  have hends : Ends i s t := ends_of_exec ht
  have hends' : Ends i s' t' := ends_of_exec ht'
  refine ⟨t, t', ht, ht', hcode, hends.slots_of_bcu hi, hends'.slots_of_bcu hi, ?_, ?_⟩
  · split
    next hwritten => exact hwritten.elim hr0
    next hkept => exact ⟨not_imp_comm.mp hends.r0_written hkept, not_imp_comm.mp hends'.r0_written (hcode ▸ hkept)⟩
  · split
    next hwritten => exact hwritten.elim hr1
    next hkept => exact ⟨not_imp_comm.mp hends.r1_written hkept, not_imp_comm.mp hends'.r1_written (hcode ▸ hkept)⟩

/-- Settles O25. -/
theorem mkidBuildsTheIdentifier : Obligations.MkidBuildsTheIdentifier := by
  refine ⟨rfl, fun s hp => ?_⟩
  rw [exec_bcu rfl hp, effectOf, mkidEffect, State.succeed_eq_completed, State.returnId_buildId]
  rfl

/-- Settles O27: the bits of an identifier from 96 on are the variant's, those below the suffix's. -/
theorem identifiersHaveTheirFieldsAndBytes : Obligations.IdentifiersHaveTheirFieldsAndBytes := by
  refine ⟨suffix_eq, fun v => ⟨?_, ?_, ?_, buildId_low v, idBytes_buildId v⟩,
    fun id => ⟨rfl, fun _ hk => idBytes_getElem? id hk⟩⟩
  · rw [buildId_extract_variant v (by decide), BitVec.extractLsb'_eq_self]
  · rw [buildId_extract_suffix v (by decide), suffix_eq]
    rfl
  · rw [buildId_extract_suffix v (by decide), suffix_eq]
    rfl

/-- Settles O28. -/
theorem pack2JoinsTheTwoValues : Obligations.Pack2JoinsTheTwoValues := by
  refine ⟨rfl, fun s hp => ?_⟩
  rw [exec_bcu rfl hp, effectOf, pack2Effect, State.succeed_eq_completed]
  rfl

/-- Settles O29: sign extension keeps the signed reading of each half. -/
theorem unpack2SignExtendsEachHalf : Obligations.Unpack2SignExtendsEachHalf := by
  refine ⟨rfl, fun s hp => ⟨sext64 (s.opHigh32 .a0), sext64 (s.op32 .a0), sext64_toInt _, sext64_toInt _, ?_⟩⟩
  rw [exec_bcu rfl hp, effectOf, unpack2Effect, State.succeed_eq_completed]
  rfl

/-- Settles O33: the quotient fits, so its 64-bit pattern reads as the quotient. -/
theorem t2msTruncatesTowardZero : Obligations.T2msTruncatesTowardZero := by
  refine ⟨rfl, fun s hp => ⟨bits64 (s.a0.toInt.tdiv 10000), bits64_tdiv_toInt s.a0, ?_⟩⟩
  rw [exec_bcu rfl hp, effectOf, t2msEffect, State.succeed_eq_completed]
  rfl

end Sys2Proof.Machine

/-! ## The pixel buffer unit (41_pixel.md): the facts its statements need, then the statements -/

namespace Sys2Proof.Machine

/-! ### A PBU command's word and its start -/

/-- The word of a PBU command is its slot shifted above its opcode (30_encoding.md R70, R76). -/
theorem encode_of_slot {i : Instr} {n : SlotField} (hi : i.slot? = some n) :
    encode i = n.setWidth 32 <<< 8 ||| (opcodeOf i).setWidth 32 := by
  have hslot : slotBitsOf i = n := by rw [slotBitsOf, hi]
  rw [encode, hslot, shifted_slot_or_opcode]

/-- A PBU command on a slot of the table, with no payload, passes the tests of 30_encoding.md R78. -/
theorem exec_pbu {i : Instr} {n : SlotField} {s : State} (hi : i.slot? = some n) (hs : Claim.Starts s n) :
    exec i s = .next (effectOf i s) := by
  obtain ⟨hn, hp⟩ := hs
  exact exec_legal (commandLegal_of_pbu hi hn (.inr hp))

/-- On a slot with no buffer, a command that touches pixel memory reports Disposed. -/
theorem exec_pbu_of_not_live {i : Instr} {n : SlotField} {s : State} (ht : touchesMemory i = true) (hi : i.slot? = some n)
    (hs : Claim.Starts s n) (h : ¬ (s.slot n).isLive) : exec i s = .next (Claim.reported s .disposed) := by
  obtain ⟨hn, hp⟩ := hs
  exact exec_of_not_live ht hi hn (.inr hp) h

theorem State.onLive_of_live {s : State} {n : SlotField} (h : (s.slot n).isLive) (t : State) : s.onLive n t = t := if_pos h

/-! ### Pixel words and addresses in the words of the statements -/

/-- A word read is the pixel word of the statements (20_memory.md R53). -/
theorem Slot.readWord_eq_pixelWord (sl : Slot) (e : Endian) (a : Nat) : sl.readWord e a = Claim.pixelWord e sl a := by
  rw [Slot.readWord_eq, fromBytes_four]
  rfl

/-- The byte a word write puts at offset k is byte k of the word's image (00_scope.md R11). -/
theorem lane_laneOfByte_eq_imageByte (e : Endian) (v : Word) (k : Nat) : lane v (laneOfByte e 4 k) = Claim.imageByte e v k := by
  cases e <;> rfl

/-- SIZE(s) is the size of the statements (10_state.md R33). -/
theorem Slot.size_eq_byteSize (sl : Slot) : sl.size = Claim.byteSize sl := rfl

/-- A pixel takes four bytes (10_state.md R33). -/
theorem Slot.size_eq_count (sl : Slot) : sl.size = sl.count * 4 := rfl

/-- Operands in bounds name the pixel x + y * W (41_pixel.md R142). -/
theorem pixelIndex_of_inBounds {s : State} {n : SlotField} (h : Claim.InBounds s n) :
    (s.slot n).pixelIndex (s.opS32 .a0) (s.opS32 .a1) =
      some (Claim.firstS32 s + Claim.secondS32 s * (s.slot n).w.toInt).toNat := by
  obtain ⟨hx, hxw, hy, hyh⟩ := h
  refine if_neg ?_
  rintro (hneg | hbig | hneg | hbig)
  · exact hneg.not_ge hx
  · exact hbig.not_gt hxw
  · exact hneg.not_ge hy
  · exact hbig.not_gt hyh

/-- Any other operands name no pixel. -/
theorem pixelIndex_of_not_inBounds {s : State} {n : SlotField} (h : ¬ Claim.InBounds s n) :
    (s.slot n).pixelIndex (s.opS32 .a0) (s.opS32 .a1) = none := by
  refine if_pos ?_
  by_contra hin
  push Not at hin
  exact h hin

/-! ### Slots written back -/

/-- The report of a command that has written slot n, in the words of the statements. -/
theorem State.setSlot_succeed (s : State) (n : SlotField) (sl : Slot) (out : List Byte) :
    (s.setSlot n sl).succeed out = Claim.completed (Claim.withSlot s n sl) out := State.succeed_eq_completed _ out

/-- A slot that agrees with another in all but memory is that other with its own memory. -/
theorem withMem_mem {sl sl' : Slot} (hstate : sl'.state = sl.state) (hw : sl'.w = sl.w) (hh : sl'.h = sl.h)
    (hfresh : sl'.fresh = sl.fresh) : Claim.withMem sl sl'.mem = sl' := by
  rw [Claim.withMem, ← hstate, ← hw, ← hh, ← hfresh]

theorem Slot.withMem_writeBytes (sl : Slot) (a : Nat) (bs : List Byte) :
    Claim.withMem sl (sl.writeBytes a bs).mem = sl.writeBytes a bs := rfl

theorem Slot.withMem_writeWord (sl : Slot) (e : Endian) (a : Nat) (v : Word) :
    Claim.withMem sl (sl.writeWord e a v).mem = sl.writeWord e a v := rfl

theorem Slot.withMem_alphaPixels (sl : Slot) (e : Endian) (n : Nat) :
    Claim.withMem sl (sl.alphaPixels e n).mem = sl.alphaPixels e n := by
  obtain ⟨hstate, hw, hh, hfresh⟩ := sl.alphaPixels_frame e n
  exact withMem_mem hstate hw hh hfresh

/-- Bytes written from byte 0 on: the list's own where it has one, else what stood there (41_pixel.md R145). -/
theorem Slot.byte_writeBytes_zero (sl : Slot) (bs : List Byte) (a : Nat) :
    (sl.writeBytes 0 bs).byte a = match bs[a]? with | some b => b | none => sl.byte a := by
  rw [Slot.byte_writeBytes, Nat.zero_add, Nat.sub_zero]
  rcases Nat.lt_or_ge a bs.length with h | h
  · rw [if_pos ⟨Nat.zero_le a, h⟩, List.getD_eq_getElem?_getD, List.getElem?_eq_getElem h]
    rfl
  · rw [if_neg (fun hin => hin.2.not_ge h), List.getElem?_eq_none h]

/-! ### The tests of PBCREATE, in their order (41_pixel.md R141) -/

theorem pbcreateEffect_of_live {n : SlotField} {s : State} (h : (s.slot n).isLive) :
    pbcreateEffect n s = s.raise .slotInUse := if_pos h

theorem pbcreateEffect_of_negative {n : SlotField} {s : State} (hl : ¬ (s.slot n).isLive)
    (h : Claim.firstS32 s < 0 ∨ Claim.secondS32 s < 0) : pbcreateEffect n s = s.raise .invalidArgument :=
  (if_neg hl).trans (if_pos h)

/-- A size beyond either bound and a refused draw end in the same report (41_pixel.md R141). -/
theorem pbcreateEffect_of_refused {n : SlotField} {s : State} (hl : ¬ (s.slot n).isLive)
    (hx : 0 ≤ Claim.firstS32 s) (hy : 0 ≤ Claim.secondS32 s)
    (h : 2147483647 < Claim.firstS32 s * Claim.secondS32 s * 4 ∨
      (s.cfg.maxBytes : Int) < Claim.firstS32 s * Claim.secondS32 s * 4 ∨ s.allocOk = false) :
    pbcreateEffect n s = s.raise .allocationFailure := by
  have hdims : ¬ (s.opS32 .a0 < 0 ∨ s.opS32 .a1 < 0) := not_or.mpr ⟨hx.not_gt, hy.not_gt⟩
  rw [pbcreateEffect, if_neg hl, if_neg hdims]
  rcases or_assoc.mpr h with hsize | hdraw
  · exact if_pos hsize
  · rw [if_pos hdraw, ite_self]

/-- Where every test passes, the slot is allocated. -/
theorem pbcreateEffect_of_granted {n : SlotField} {s : State} (hl : ¬ (s.slot n).isLive)
    (hx : 0 ≤ Claim.firstS32 s) (hy : 0 ≤ Claim.secondS32 s)
    (hsize : Claim.firstS32 s * Claim.secondS32 s * 4 ≤ 2147483647)
    (hmax : Claim.firstS32 s * Claim.secondS32 s * 4 ≤ (s.cfg.maxBytes : Int)) (hdraw : s.allocOk = true) :
    pbcreateEffect n s = (s.allocate n (s.op32 .a0) (s.op32 .a1)).succeed [] := by
  have hdims : ¬ (s.opS32 .a0 < 0 ∨ s.opS32 .a1 < 0) := not_or.mpr ⟨hx.not_gt, hy.not_gt⟩
  have hfits : ¬ (2147483647 < s.opS32 .a0 * s.opS32 .a1 * 4 ∨ (s.cfg.maxBytes : Int) < s.opS32 .a0 * s.opS32 .a1 * 4) :=
    not_or.mpr ⟨hsize.not_gt, hmax.not_gt⟩
  rw [pbcreateEffect, if_neg hl, if_neg hdims, if_neg hfits, if_neg (by simp [hdraw])]

/-! ### Exact results -/

/-- An integer in the range of 64 bits is what its pattern reads as (00_scope.md R10). -/
theorem bits64_toInt {i : Int} (hlow : -2 ^ 63 ≤ i) (hhigh : i < 2 ^ 63) : (bits64 i).toInt = i :=
  BitVec.toInt_ofInt_eq_self (by decide) hlow hhigh

/-- The stride of any width fits 64 bits, and its greatest value is that of the width 2147483647 (41_pixel.md R150). -/
theorem Slot.stride_bounds (sl : Slot) : -2 ^ 63 ≤ sl.stride ∧ sl.stride ≤ 8589934588 := by
  have hlow := sl.w.le_toInt
  have hhigh := sl.w.toInt_lt
  rw [Slot.stride, Slot.width]
  omega

/-- A slot within the invariant that is not live has dimensions 0 (10_state.md R32). -/
theorem State.Inv.dimensions_of_not_live {s : State} {n : SlotField} (hs : s.Inv) (h : ¬ (s.slot n).isLive) :
    (s.slot n).w = 0 ∧ (s.slot n).h = 0 := by
  obtain ⟨hw, hh, -⟩ := (hs.slots n).gone h
  exact ⟨hw, hh⟩

/-- The dimensions of every slot within the invariant are at least 0 (10_state.md R32). -/
theorem State.Inv.dimensions_nonneg {s : State} (hs : s.Inv) (n : SlotField) :
    0 ≤ (s.slot n).width ∧ 0 ≤ (s.slot n).height := by
  by_cases h : (s.slot n).isLive
  · exact (hs.slots n).dimensions h
  · obtain ⟨hw, hh⟩ := hs.dimensions_of_not_live h
    simp [Slot.width, Slot.height, hw, hh]

/-- The size of every slot within the invariant is at most 2147483647 (10_state.md R33, R34; 00_scope.md R7). -/
theorem State.Inv.size_le {s : State} (hs : s.Inv) (n : SlotField) : (s.slot n).size ≤ 2147483647 := by
  by_cases h : (s.slot n).isLive
  · obtain ⟨-, -, hmax, -⟩ := hs.config
    have hfits := (hs.slots n).fits h
    omega
  · obtain ⟨hw, hh⟩ := hs.dimensions_of_not_live h
    simp [Slot.size, Slot.width, Slot.height, hw, hh]

theorem State.Inv.count_nonneg {s : State} (hs : s.Inv) (n : SlotField) : 0 ≤ (s.slot n).count := by
  obtain ⟨hw, hh⟩ := hs.dimensions_nonneg n
  exact Int.mul_nonneg hw hh

/-! ### The statements -/

/-- Settles O39: each test that fails ends the command, in the order of the machine's tests; a buffer just allocated has no written
byte. -/
theorem pbcreateAllocatesTheSlot : Obligations.PbcreateAllocatesTheSlot := by
  refine ⟨fun n => encode_of_slot rfl, fun s n hs => ?_⟩
  rw [exec_pbu rfl hs, effectOf]
  refine ⟨fun hl => ?_, fun hl hneg => ?_, fun hl hx hy href => ?_, fun hl hx hy hsize hmax hdraw => ?_⟩
  · rw [pbcreateEffect_of_live hl, State.raise_eq_reported]
  · rw [pbcreateEffect_of_negative hl hneg, State.raise_eq_reported]
  · rw [pbcreateEffect_of_refused hl hx hy href, State.raise_eq_reported]
  · refine ⟨Slot.allocated (s.op32 .a0) (s.op32 .a1) s.draws, rfl, rfl, rfl, Slot.byte_allocated _ _ _, ?_⟩
    rw [pbcreateEffect_of_granted hl hx hy hsize hmax hdraw, State.succeed_eq_completed]
    rfl

/-- Settles O40: the bounds decide whether there is a pixel, and the word read is the pixel's. -/
theorem pbgetReadsThePixelWord : Obligations.PbgetReadsThePixelWord := by
  refine ⟨fun n => encode_of_slot rfl, fun s n hs => ⟨exec_pbu_of_not_live rfl rfl hs, fun hl hout => ?_, fun hl hin => ?_⟩⟩
  · rw [exec_pbu rfl hs, effectOf, pbgetEffect, State.onLive_of_live hl, pixelIndex_of_not_inBounds hout]
    exact congrArg _ (State.raise_eq_reported s .outOfBounds)
  · rw [exec_pbu rfl hs, effectOf, pbgetEffect, State.onLive_of_live hl, pixelIndex_of_inBounds hin,
      ← Slot.readWord_eq_pixelWord, ← zext64_eq_append]
    exact congrArg _ (State.succeed_eq_completed _ [])

/-- Settles O41: the word write changes the four bytes at the pixel's address and no other. -/
theorem pbsetWritesThePixelWord : Obligations.PbsetWritesThePixelWord := by
  refine ⟨fun n => encode_of_slot rfl, fun s n hs => ⟨exec_pbu_of_not_live rfl rfl hs, fun hl hout => ?_, fun hl hin => ?_⟩⟩
  · rw [exec_pbu rfl hs, effectOf, pbsetEffect, State.onLive_of_live hl, pixelIndex_of_not_inBounds hout]
    exact congrArg _ (State.raise_eq_reported s .outOfBounds)
  · refine ⟨((s.slot n).writeWord s.cfg.endian (Claim.pixelAddress s n) (s.op32 .a2)).mem, ?_, fun a => ?_⟩
    · rw [exec_pbu rfl hs, effectOf, pbsetEffect, State.onLive_of_live hl, pixelIndex_of_inBounds hin]
      exact congrArg _ (State.setSlot_succeed s n _ [])
    · rw [Slot.withMem_writeWord, Slot.byte_writeWord, lane_laneOfByte_eq_imageByte]
      rfl

/-- Settles O42: the loop runs over the COUNT pixels, whose words end at SIZE. -/
theorem pbalphaForcesEveryAlpha : Obligations.PbalphaForcesEveryAlpha := by
  refine ⟨fun n => encode_of_slot rfl, fun s n hs => ⟨exec_pbu_of_not_live rfl rfl hs, fun hl => ?_⟩⟩
  refine ⟨((s.slot n).alphaPixels s.cfg.endian (s.slot n).count.toNat).mem, ?_⟩
  rw [Slot.withMem_alphaPixels]
  refine ⟨?_, fun i hi => ?_, fun a ha => Slot.byte_alphaPixels_beyond _ _ _ ?_⟩
  · rw [exec_pbu rfl hs, effectOf, pbalphaEffect, State.onLive_of_live hl, State.setSlot_succeed]
  · have hcount : i < (s.slot n).count.toNat := Int.lt_toNat.mpr hi
    rw [← Slot.readWord_eq_pixelWord, ← Slot.readWord_eq_pixelWord]
    exact Slot.readWord_alphaPixels _ _ _ hcount
  · rw [← Slot.size_eq_byteSize, Slot.size_eq_count] at ha
    omega

/-- Settles O44: PBFILL alone may start with a payload, and its length against SIZE decides. -/
theorem pbfillCopiesThePayload : Obligations.PbfillCopiesThePayload := by
  refine ⟨fun n => encode_of_slot rfl, fun s n hn => ⟨exec_of_not_live rfl rfl hn (.inl rfl), fun hl hlong => ?_,
    fun hl hfits => ⟨((s.slot n).writeBytes 0 s.payload).mem, ?_, Slot.byte_writeBytes_zero _ _⟩⟩⟩
  all_goals rw [exec_legal (commandLegal_of_pbu rfl hn (.inl rfl)), effectOf, pbfillEffect, State.onLive_of_live hl,
    Slot.size_eq_byteSize]
  · rw [if_pos hlong, State.raise_eq_reported]
  · rw [if_neg hfits.not_gt, State.setSlot_succeed, Slot.withMem_writeBytes]

/-- Settles O45: the output is the list of the bytes from 0 to SIZE. -/
theorem pbreadReturnsEveryByte : Obligations.PbreadReturnsEveryByte := by
  refine ⟨fun n => encode_of_slot rfl, fun s n hs => ⟨exec_pbu_of_not_live rfl rfl hs, fun hl =>
    ⟨(s.slot n).byteList 0 (s.slot n).size.toNat, ?_, Slot.byteList_length _ _ _, fun k hk => ?_⟩⟩⟩
  · rw [exec_pbu rfl hs, effectOf, pbreadEffect, State.onLive_of_live hl, State.succeed_eq_completed]
  · rw [Slot.size_eq_byteSize, Slot.byteList_getElem? _ _ _ (Int.lt_toNat.mpr hk), Nat.zero_add]

/-- Settles O48: within the invariant the size is at most 2147483647 and the count a quarter of it, so both fit 64 bits. -/
theorem pbsizeReadsTheSizeAndCount : Obligations.PbsizeReadsTheSizeAndCount := by
  refine ⟨fun n => encode_of_slot rfl, fun s n hs hinv => ?_⟩
  have hsize := (s.slot n).size_eq_count
  have hmax := hinv.size_le n
  have hmin := hinv.count_nonneg n
  have hx : (bits64 (s.slot n).size).toInt = (s.slot n).size := bits64_toInt (by omega) (by omega)
  have hy : (bits64 (s.slot n).count).toInt = (s.slot n).count := bits64_toInt (by omega) (by omega)
  refine ⟨bits64 (s.slot n).size, bits64 (s.slot n).count, hx, hy, by omega, by omega, by omega, by omega, ?_, fun hl => ?_⟩
  · rw [exec_pbu rfl hs, effectOf, pbsizeEffect, State.succeed_eq_completed]
    rfl
  · obtain ⟨hw, hh⟩ := hinv.dimensions_of_not_live hl
    simp [Slot.size, Slot.count, Slot.width, Slot.height, hw, hh, bits64]

/-- Settles O46. -/
theorem pbfreeReleasesALiveSlot : Obligations.PbfreeReleasesALiveSlot := by
  refine ⟨fun n => encode_of_slot rfl, fun s n hs => ?_⟩
  rw [exec_pbu rfl hs, effectOf]
  refine ⟨fun hl => ?_, fun hl => ?_⟩
  · rw [pbfreeEffect_of_live hl, State.setSlot_succeed]
    rfl
  · rw [pbfreeEffect_of_not_live hl, State.succeed_eq_completed]

/-- Settles O47: sign extension keeps the signed reading of each dimension. -/
theorem pbdimReadsTheDimensions : Obligations.PbdimReadsTheDimensions := by
  refine ⟨fun n => encode_of_slot rfl, fun s n hs => ⟨sext64 (s.slot n).w, sext64 (s.slot n).h, sext64_toInt _, sext64_toInt _,
    ?_, fun hinv hl => ?_⟩⟩
  · rw [exec_pbu rfl hs, effectOf, pbdimEffect, State.succeed_eq_completed]
    rfl
  · obtain ⟨hw, hh⟩ := hinv.dimensions_of_not_live hl
    rw [hw, hh]
    decide

/-- Settles O49: every stride fits 64 bits; a slot of height 1 or more holds at least one row. -/
theorem pbstrideReadsTheStride : Obligations.PbstrideReadsTheStride := by
  refine ⟨fun n => encode_of_slot rfl, fun s n hs => ?_⟩
  obtain ⟨hlow, hhigh⟩ := (s.slot n).stride_bounds
  have hx : (bits64 (s.slot n).stride).toInt = (s.slot n).stride := bits64_toInt hlow (by omega)
  refine ⟨bits64 (s.slot n).stride, hx, hx.trans_le hhigh, ?_, fun hinv hl => ?_, fun hinv hh => hx.trans_le ?_⟩
  · rw [exec_pbu rfl hs, effectOf, pbstrideEffect, State.succeed_eq_completed]
    rfl
  · obtain ⟨hw, -⟩ := hinv.dimensions_of_not_live hl
    rw [Slot.stride, Slot.width, hw]
    decide
  · obtain ⟨hw, -⟩ := hinv.dimensions_nonneg n
    exact Int.mul_le_mul_of_nonneg_right (le_mul_of_one_le_right hw hh) (by decide)

end Sys2Proof.Machine

/-! ## Errors (60_exceptions.md): the facts its statements need, then the statements -/

namespace Sys2Proof.Machine

/-! ### How a command ends -/

/-- A command that raised left the error report of its own code, and so nothing else (60_exceptions.md R192). -/
theorem Ends.eq_reported {i : Instr} {s t : State} (h : Ends i s t) (ht : t.code ≠ .ok) : t = Claim.reported s t.code := by
  rcases h with ⟨c, -, rfl⟩ | ⟨u, out, rfl, -, -⟩
  · exact State.raise_eq_reported s c
  · exact absurd rfl ht

/-- The response of a command that succeeded: OK, with STICKY as it was at the start (60_exceptions.md R193). -/
theorem Ends.reply_of_ok {i : Instr} {s t : State} (h : Ends i s t) (ht : t.code = .ok) :
    ∃ out, t.replies = .command (if s.sticky then 0x100#32 else 0#32) out :: s.replies := by
  rcases h with ⟨c, hc, rfl⟩ | ⟨u, out, rfl, hu, -⟩
  · exact absurd ht hc
  · rw [State.succeed_eq_completed, ← hu.sticky, ← hu.replies]
    exact ⟨out, rfl⟩

/-! ### Every step ends -/

/-- A write of CMD answers, whether or not its word decodes (30_encoding.md R79). -/
theorem issue_answers (w : Word) (s : State) : ∃ t, issue w s = .next t := by
  unfold issue
  split
  · exact ⟨_, rfl⟩
  · exact ⟨_, exec_next _ s⟩

/-- The block always finishes the host's next action, and waits where there is none (60_exceptions.md R190, R199). -/
theorem step_answers (s : State) : ∃ t, step s = .next t := by
  rcases hp : s.pending with _ | ⟨a, rest⟩
  · exact ⟨s, by rw [step, hp]⟩
  · cases a with
    | reset => exact ⟨_, step_of_reset hp⟩
    | read off => exact ⟨_, step_of_read hp⟩
    | write off v p ok =>
      by_cases h0 : off = 0
      · subst h0
        rw [step_of_command hp]
        exact issue_answers _ _
      · exact ⟨_, step_of_write hp h0⟩

/-! ### The statements -/

/-- Settles O5: a command ends in a report, of success or of one error, whose response is read off it. -/
theorem everyCommandSucceedsOrRaisesOneError : Obligations.EveryCommandSucceedsOrRaisesOneError := by
  refine ⟨fun i s => ?_, step_answers⟩
  obtain ⟨t, ht, hends⟩ := exec_ends i s
  refine ⟨t, ht, ?_⟩
  by_cases hok : t.code = .ok
  · exact .inl ⟨hok, hends.reply_of_ok hok⟩
  · exact .inr ⟨hok, congrArg State.replies (hends.eq_reported hok)⟩

/-- Settles O6. -/
theorem anErrorChangesOnlyTheStatus : Obligations.AnErrorChangesOnlyTheStatus :=
  fun _ _ _ h ht => (ends_of_exec h).eq_reported ht

end Sys2Proof.Machine

/-! ## Reset (70_reset_and_hazards.md): the statement -/

namespace Sys2Proof.Machine

/-- Settles O2: each piece of state that `State.applyReset` leaves is the one of `State.resetWith`, whose values O1 lists (R39). -/
theorem resetInputRestoresEveryPieceOfState : Obligations.ResetInputRestoresEveryPieceOfState := by
  intro s rest hp
  exact ⟨_, step_of_reset hp, resetLeavesTheSpecsValues s.cfg (State.resetWith s.cfg) rfl⟩

end Sys2Proof.Machine

/-! ## Decoding and encoding (30_encoding.md section 4): the facts the statements need, then the statements -/

namespace Sys2Proof.Machine

/-! ### A word and its three fields -/

/-- A word is its RSVD, SLOT and OPCODE fields (30_encoding.md R70). -/
theorem word_eq_fields (w : Word) : w = rsvdField w ++ slotField w ++ opcodeField w := by
  have hhigh : rsvdField w ++ slotField w = w.extractLsb' 8 24 :=
    BitVec.extractLsb'_append_extractLsb'_eq_extractLsb' (start₁ := 8) (len₁ := 8) (len₂ := 16) rfl
  have hall : w.extractLsb' 8 24 ++ opcodeField w = w.extractLsb' 0 32 :=
    BitVec.extractLsb'_append_extractLsb'_eq_extractLsb' (start₁ := 0) (len₁ := 8) (len₂ := 24) rfl
  rw [hhigh, hall, BitVec.extractLsb'_eq_self]

theorem slot?_of_bcuOfOpcode {o : BitVec 8} {i : Instr} (h : bcuOfOpcode o = some i) : i.slot? = none := by
  unfold bcuOfOpcode at h
  split_ifs at h <;> cases h <;> rfl

theorem slot?_of_pbuOfOpcode {o : BitVec 8} {n : SlotField} {i : Instr} (h : pbuOfOpcode o n = some i) : i.slot? = some n := by
  unfold pbuOfOpcode at h
  split_ifs at h <;> cases h <;> rfl

/-- A word decodes only where RSVD is 0, and to a command of its own slot bits (30_encoding.md R77, R78). -/
theorem fields_of_decode {w : Word} {i : Instr} (h : decode w = some i) : rsvdField w = 0 ∧ slotBitsOf i = slotField w := by
  unfold decode at h
  split at h
  · cases h
  · rename_i hrsvd
    refine ⟨not_not.mp hrsvd, ?_⟩
    split at h
    · rename_i hbcu
      split at h
      · cases h
      · rename_i hslot
        cases h
        rw [slotBitsOf, slot?_of_bcuOfOpcode hbcu]
        exact (not_not.mp hslot).symm
    · rw [slotBitsOf, slot?_of_pbuOfOpcode h]

/-- A word that decodes is the word of its command: no bit of it is dropped. -/
theorem eq_encode_of_decode {w : Word} {i : Instr} (h : decode w = some i) : w = encode i := by
  obtain ⟨hrsvd, hslot⟩ := fields_of_decode h
  have hword := word_eq_fields w
  rwa [hrsvd, ← hslot, ← opcodeOf_of_decode h] at hword

/-- Settles O20: a word is its three fields, each of which the decoder fixes; the other direction is `decode_encode`. -/
theorem decodingInvertsEncoding : Obligations.DecodingInvertsEncoding :=
  fun _ i => ⟨eq_encode_of_decode, fun h => h ▸ decode_encode i⟩

/-! ### The tests of decoding (30_encoding.md R78) -/

/-- The BCU half of the opcode map (30_encoding.md R76). -/
def IsBcuOpcode (o : BitVec 8) : Prop := 0x01 ≤ o.toNat ∧ o.toNat ≤ 0x08

/-- The PBU half of the opcode map (30_encoding.md R76). -/
def IsPbuOpcode (o : BitVec 8) : Prop := 0x10 ≤ o.toNat ∧ o.toNat ≤ 0x19

theorem IsPbuOpcode.not_bcu {o : BitVec 8} (h : IsPbuOpcode o) : ¬ IsBcuOpcode o := by
  unfold IsPbuOpcode at h
  unfold IsBcuOpcode
  omega

theorem bcuOfOpcode_ne_none {o : BitVec 8} (h : IsBcuOpcode o) : bcuOfOpcode o ≠ none := by
  intro hnone
  unfold bcuOfOpcode at hnone
  split_ifs at hnone
  unfold IsBcuOpcode at h
  bv_omega

theorem pbuOfOpcode_ne_none {o : BitVec 8} (n : SlotField) (h : IsPbuOpcode o) : pbuOfOpcode o n ≠ none := by
  intro hnone
  unfold pbuOfOpcode at hnone
  split_ifs at hnone
  unfold IsPbuOpcode at h
  bv_omega

theorem opcodeOf_isBcuOpcode {i : Instr} (h : i.slot? = none) : IsBcuOpcode (opcodeOf i) := by
  unfold IsBcuOpcode
  cases i with
  | fourcc | mkid | mkidfcc | pack2 | unpack2 | t2ms | ms2t | idfor => decide
  | pbcreate _ | pbget _ | pbset _ | pbalpha _ | pbfill _ | pbread _ | pbfree _ | pbdim _ | pbsize _ | pbstride _ => cases h

theorem opcodeOf_isPbuOpcode {i : Instr} {n : SlotField} (h : i.slot? = some n) : IsPbuOpcode (opcodeOf i) := by
  unfold IsPbuOpcode
  cases i with
  | fourcc | mkid | mkidfcc | pack2 | unpack2 | t2ms | ms2t | idfor => cases h
  | pbcreate _ | pbget _ | pbset _ | pbalpha _ | pbfill _ | pbread _ | pbfree _ | pbdim _ | pbsize _ | pbstride _ =>
    simp [opcodeOf]

theorem bcuOfOpcode_of_pbu {o : BitVec 8} (h : IsPbuOpcode o) : bcuOfOpcode o = none := by
  refine Option.eq_none_iff_forall_ne_some.mpr fun i hi => h.not_bcu ?_
  rw [← opcodeOf_of_bcuOfOpcode hi]
  exact opcodeOf_isBcuOpcode (slot?_of_bcuOfOpcode hi)

theorem takesPayload_iff (i : Instr) : i.takesPayload = true ↔ opcodeOf i = 0x14#8 := by
  cases i <;> simp [Instr.takesPayload, opcodeOf]

/-- The five tests of the statements, all passed, by the fields of the word. -/
theorem not_illegal_iff (c : Config) (w : Word) (p : List Byte) :
    ¬ Claim.Illegal c w p ↔ rsvdField w = 0 ∧
      (IsBcuOpcode (opcodeField w) ∧ slotField w = 0 ∨ IsPbuOpcode (opcodeField w) ∧ (slotField w).toNat < c.numSlots) ∧
      (opcodeField w = 0x14 ∨ p = []) := by
  have hspelled : Claim.Illegal c w p ↔ rsvdField w ≠ 0 ∨ ¬ (IsBcuOpcode (opcodeField w) ∨ IsPbuOpcode (opcodeField w)) ∨
      (IsBcuOpcode (opcodeField w) ∧ slotField w ≠ 0) ∨
      (IsPbuOpcode (opcodeField w) ∧ c.numSlots ≤ (slotField w).toNat) ∨ (opcodeField w ≠ 0x14 ∧ p ≠ []) := by
    simp only [Claim.Illegal, IsBcuOpcode, IsPbuOpcode, and_assoc]
    rfl
  rw [hspelled, ← not_lt]
  have hdisjoint := IsPbuOpcode.not_bcu (o := opcodeField w)
  tauto

/-- A word that passes the tests that read it alone decodes. -/
theorem exists_decode {w : Word} (hrsvd : rsvdField w = 0)
    (h : IsBcuOpcode (opcodeField w) ∧ slotField w = 0 ∨ IsPbuOpcode (opcodeField w)) : ∃ i, decode w = some i := by
  rw [decode, if_neg (not_not.mpr hrsvd)]
  rcases h with ⟨hbcu, hslot⟩ | hpbu
  · obtain ⟨i, hi⟩ := Option.ne_none_iff_exists'.mp (bcuOfOpcode_ne_none hbcu)
    exact ⟨i, by rw [hi]; exact if_neg (not_not.mpr hslot)⟩
  · obtain ⟨i, hi⟩ := Option.ne_none_iff_exists'.mp (pbuOfOpcode_ne_none (slotField w) hpbu)
    exact ⟨i, by rw [bcuOfOpcode_of_pbu hpbu, ← hi]⟩

/-- On the word of a command, the tests of the statements are those the command makes when it starts. -/
theorem not_illegal_encode_iff (i : Instr) (s : State) :
    ¬ Claim.Illegal s.cfg (encode i) s.payload ↔ commandLegal i s = true := by
  obtain ⟨hop, hslot, hrsvd⟩ :
      opcodeField (encode i) = opcodeOf i ∧ slotField (encode i) = slotBitsOf i ∧ rsvdField (encode i) = 0 :=
    Laws.WordFields.fields_append _ _
  have hpayload : opcodeOf i = 0x14 ∨ s.payload = [] ↔ (i.takesPayload || s.payload.isEmpty) = true := by
    rw [Bool.or_eq_true, takesPayload_iff, List.isEmpty_iff]
    rfl
  rw [not_illegal_iff, hop, hslot, hrsvd, hpayload, commandLegal, Bool.and_eq_true, slotBitsOf, Instr.wellFormed]
  cases hi : i.slot? with
  | none => simp [opcodeOf_isBcuOpcode hi]
  | some n => simp [opcodeOf_isPbuOpcode hi, (opcodeOf_isPbuOpcode hi).not_bcu]

/-- Where a test fails, either the word does not decode or its command is not legal; either way the write of CMD reports BadCommand. -/
theorem issue_of_illegal {w : Word} {s : State} (h : Claim.Illegal s.cfg w s.payload) :
    issue w s = .next (Claim.reported s .badCommand) := by
  rw [← State.raise_eq_reported, issue]
  cases hd : decode w with
  | none => rfl
  | some i =>
    obtain rfl := eq_encode_of_decode hd
    exact exec_illegal (Bool.eq_false_of_not_eq_true fun hl => (not_illegal_encode_iff i s).mpr hl h)

/-- Where every test passes, the word is a command's, whose slot exists. -/
theorem issue_of_not_illegal {w : Word} {s : State} (h : ¬ Claim.Illegal s.cfg w s.payload) :
    ∃ i, w = encode i ∧ i.wellFormed s.cfg.numSlots = true ∧ issue w s = exec i s := by
  obtain ⟨hrsvd, hmap, -⟩ := (not_illegal_iff _ _ _).mp h
  obtain ⟨i, hd⟩ := exists_decode hrsvd (hmap.imp_right And.left)
  obtain rfl := eq_encode_of_decode hd
  have hlegal : commandLegal i s = true := (not_illegal_encode_iff i s).mp h
  obtain ⟨hslot, -⟩ := (Bool.and_eq_true _ _).mp hlegal
  exact ⟨i, rfl, hslot, by rw [issue, hd]⟩

/-- A step on a write of CMD, in the words of the statements. -/
theorem step_eq_issue {s : State} {v : Dword} {p : List Byte} {ok : Bool} {rest : List HostAction}
    (hp : s.pending = .write 0x00 v p ok :: rest) : step s = issue (v.extractLsb' 0 32) (Claim.started s rest p ok) :=
  step_of_command hp

/-- Settles O21: the tests on the word are the decoder's, the others the command's. -/
theorem illegalCommandsRaiseBadCommand : Obligations.IllegalCommandsRaiseBadCommand := by
  intro s v p ok rest hp
  rw [step_eq_issue hp]
  exact ⟨issue_of_illegal (s := Claim.started s rest p ok), issue_of_not_illegal (s := Claim.started s rest p ok)⟩

/-- Settles O22. -/
theorem aStepRunsTheDecodedCommand : Obligations.AStepRunsTheDecodedCommand := by
  intro s v p ok rest i hp hd
  rw [step_eq_issue hp, issue, hd]

/-- Settles O19: three words are encodings, which decode back; RSVD, SLOT of a BCU command and a reserved opcode refuse the others. -/
theorem writtenOutWordsDecode : Obligations.WrittenOutWordsDecode :=
  ⟨decode_encode .t2ms, decode_encode (.pbget 0), decode_encode (.pbfill 1), decode_eq_none_of_reserved (by decide), rfl, rfl⟩

end Sys2Proof.Machine

/-! ## The slot table (10_state.md section 3; 20_memory.md section 3): what a command and a step do to it, then the statements -/

namespace Sys2Proof.Machine

/-! ### Reading a table in which one entry was set -/

/-- An entry read from a table with one entry set; where the table lacks the entry, nothing was set. -/
theorem State.slot_of_set {s t : State} {n : SlotField} {sl : Slot} (h : t.slots = s.slots.set n.toNat sl) (m : SlotField) :
    t.slot m = if m = n ∧ n.toNat < s.slots.length then sl else s.slot m := by
  have heq : n.toNat = m.toNat ↔ m = n := ⟨fun e => BitVec.eq_of_toNat_eq e.symm, fun e => e ▸ rfl⟩
  simp only [State.slot, h, List.getD_eq_getElem?_getD, List.getElem?_set, heq]
  by_cases hm : m = n
  · subst hm
    by_cases hlen : m.toNat < s.slots.length
    · simp [hlen]
    · simp [hlen]
  · simp [hm]

/-- A live slot is an entry of the table. -/
theorem State.lt_length_of_live {s : State} {n : SlotField} (h : (s.slot n).isLive) : n.toNat < s.slots.length := by
  by_contra hlen
  rw [State.slot, List.getD_eq_default _ _ (Nat.le_of_not_lt hlen)] at h
  cases h

/-! ### What a command does to the table -/

/-- The ways a command can change the table: not at all, by storing into its live slot, by freeing it, by creating it. -/
inductive TableChange (i : Instr) (s t : State) : Prop where
  | kept (hslots : t.slots = s.slots) (hdraws : t.draws = s.draws)
  | stored (n : SlotField) (sl : Slot) (hi : i = .pbset n ∨ i = .pbalpha n ∨ i = .pbfill n) (hlive : (s.slot n).isLive)
      (hframe : sl.state = (s.slot n).state ∧ sl.fresh = (s.slot n).fresh)
      (hwf : ∀ c d, (s.slot n).Wf c d → sl.Wf c d) (hslots : t.slots = s.slots.set n.toNat sl) (hdraws : t.draws = s.draws)
  | freed (n : SlotField) (hi : i = .pbfree n) (hlive : (s.slot n).isLive)
      (hslots : t.slots = s.slots.set n.toNat Slot.released) (hdraws : t.draws = s.draws)
  | created (n : SlotField) (hi : i = .pbcreate n) (hlive : ¬ (s.slot n).isLive) (hok : t.code = .ok)
      (hdims : 0 ≤ s.opS32 .a0 ∧ 0 ≤ s.opS32 .a1) (hfits : s.opS32 .a0 * s.opS32 .a1 * 4 ≤ s.cfg.maxBytes)
      (hslots : t.slots = s.slots.set n.toNat (Slot.allocated (s.op32 .a0) (s.op32 .a1) s.draws))
      (hdraws : t.draws = s.draws + 1)

theorem TableChange.raise (i : Instr) (s : State) (c : Code) : TableChange i s (s.raise c) := .kept rfl rfl

theorem TableChange.onLive {i : Instr} {s : State} {n : SlotField} {t : State} (h : (s.slot n).isLive → TableChange i s t) :
    TableChange i s (s.onLive n t) := by
  unfold State.onLive
  split
  · exact h ‹_›
  · exact .raise i s _

/-- A word written at a pixel of a live slot lies inside its memory (20_memory.md R57). -/
theorem Slot.Wf.writeWord {c : Config} {d : Nat} {sl : Slot} {x y : Int} {k : Nat} (h : sl.Wf c d) (hl : sl.isLive)
    (hk : sl.pixelIndex x y = some k) (e : Endian) (v : Word) : (sl.writeWord e (4 * k) v).Wf c d := by
  obtain ⟨hin, -⟩ := Slot.pixelIndex_inside hk
  exact h.writeBytes hl (by rwa [bytesOf_length])

/-- Every effect changes the table in one of these ways. -/
theorem effectOf_tableChange (i : Instr) (s : State) : TableChange i s (effectOf i s) := by
  cases i with
  | mkid | pack2 | unpack2 | t2ms | pbdim _ | pbsize _ | pbstride _ => exact .kept rfl rfl
  | fourcc => simp only [effectOf, fourccEffect]; split <;> exact .kept rfl rfl
  | mkidfcc => simp only [effectOf, mkidfccEffect]; split <;> exact .kept rfl rfl
  | ms2t => simp only [effectOf, ms2tEffect]; split <;> exact .kept rfl rfl
  | idfor => simp only [effectOf, idforEffect]; split <;> exact .kept rfl rfl
  | pbget n => exact .onLive fun _ => by split <;> exact .kept rfl rfl
  | pbread n => exact .onLive fun _ => .kept rfl rfl
  | pbcreate n =>
    simp only [effectOf, pbcreateEffect]
    split
    · exact .raise _ s _
    split
    · exact .raise _ s _
    split
    · exact .raise _ s _
    split
    · exact .raise _ s _
    · rename_i hl hdims hfits _
      exact .created n rfl hl rfl (by omega) (by omega) rfl rfl
  | pbset n =>
    refine .onLive fun hl => ?_
    split
    · exact .raise _ s _
    · rename_i k hk
      exact .stored n ((s.slot n).writeWord s.cfg.endian (4 * k) (s.op32 .a2)) (.inl rfl) hl ⟨rfl, rfl⟩
        (fun _ _ hwf => hwf.writeWord hl hk _ _) rfl rfl
  | pbalpha n =>
    refine .onLive fun hl => ?_
    obtain ⟨hstate, -, -, hfresh⟩ := (s.slot n).alphaPixels_frame s.cfg.endian (s.slot n).count.toNat
    exact .stored n _ (.inr (.inl rfl)) hl ⟨hstate, hfresh⟩ (fun c d hwf => hwf.alphaPixels hl _) rfl rfl
  | pbfill n =>
    refine .onLive fun hl => ?_
    split
    · exact .raise _ s _
    · rename_i hlen
      exact .stored n ((s.slot n).writeBytes 0 s.payload) (.inr (.inr rfl)) hl ⟨rfl, rfl⟩
        (fun _ _ hwf => hwf.writeBytes hl (by omega)) rfl rfl
  | pbfree n =>
    by_cases hl : (s.slot n).isLive
    · rw [effectOf, pbfreeEffect_of_live hl]
      exact .freed n rfl hl rfl rfl
    · rw [effectOf, pbfreeEffect_of_not_live hl]
      exact .kept rfl rfl

/-- Every command changes the table in one of these ways. -/
theorem tableChange_of_exec {i : Instr} {s t : State} (h : exec i s = .next t) : TableChange i s t := by
  rw [exec_next] at h
  obtain rfl := Host.Outcome.next.inj h
  split
  · exact effectOf_tableChange i s
  · exact .raise i s _

/-! ### The invariant -/

/-- The invariant reads the configuration, the table, the count of draws and STATUS alone; a payload never survives. -/
theorem State.Inv.of_same_table {s t : State} (h : s.Inv) (hcfg : t.cfg = s.cfg) (hslots : t.slots = s.slots)
    (hdraws : t.draws = s.draws) (hsticky : t.code ≠ .ok → t.sticky = true) (hport : t.payload = []) : t.Inv where
  config := hcfg ▸ h.config
  table := by rw [hslots, hcfg, h.table]
  slots n := by rw [State.slot_congr hslots, hcfg, hdraws]; exact h.slots n
  streams m n := by rw [State.slot_congr hslots, State.slot_congr hslots]; exact h.streams m n
  sticky := hsticky
  port := hport

/-- One entry of the table replaced by a well-formed slot, whose stream no other live slot holds, keeps the invariant. -/
theorem State.Inv.of_set {s t : State} {n : SlotField} {sl : Slot} (h : s.Inv) (hcfg : t.cfg = s.cfg)
    (hslots : t.slots = s.slots.set n.toNat sl) (hdraws : s.draws ≤ t.draws) (hwf : sl.Wf t.cfg t.draws)
    (hstream : sl.isLive → ∀ m, m ≠ n → (s.slot m).isLive → (s.slot m).fresh ≠ sl.fresh)
    (hsticky : t.code ≠ .ok → t.sticky = true) (hport : t.payload = []) : t.Inv where
  config := hcfg ▸ h.config
  table := by rw [hslots, List.length_set, hcfg, h.table]
  slots m := by
    rw [State.slot_of_set hslots]
    split
    · exact hwf
    · exact hcfg ▸ (h.slots m).mono hdraws
  streams m k hmk hm hk := by
    rw [State.slot_of_set hslots] at hm hk ⊢
    rw [State.slot_of_set hslots k]
    by_cases hmn : m = n ∧ n.toNat < s.slots.length
    · have hkn : ¬ (k = n ∧ n.toNat < s.slots.length) := fun e => hmk (hmn.1.trans e.1.symm)
      rw [if_pos hmn] at hm ⊢
      rw [if_neg hkn] at hk ⊢
      exact (hstream hm k (fun e => hkn ⟨e, hmn.2⟩) hk).symm
    · rw [if_neg hmn] at hm ⊢
      by_cases hkn : k = n ∧ n.toNat < s.slots.length
      · rw [if_pos hkn] at hk ⊢
        exact hstream hk m (fun e => hmn ⟨e, hkn.2⟩) hm
      · rw [if_neg hkn] at hk ⊢
        exact h.streams m k hmk hm hk
  sticky := hsticky
  port := hport

theorem Ends.payload {i : Instr} {s t : State} (h : Ends i s t) : t.payload = [] := by
  rcases h with ⟨c, -, rfl⟩ | ⟨u, out, rfl, -, -⟩ <;> rfl

/-- A command keeps the invariant, whatever payload and draw it starts with. -/
theorem exec_keeps_inv {i : Instr} {s t : State} {p : List Byte} {ok : Bool} (hs : s.Inv)
    (h : exec i (s.accept p ok) = .next t) : t.Inv := by
  have hends := ends_of_exec h
  have hcfg : t.cfg = s.cfg := hends.cfg
  have hsticky := hends.sticky_of_error
  have hport := hends.payload
  cases tableChange_of_exec h with
  | kept hslots hdraws => exact hs.of_same_table hcfg hslots hdraws hsticky hport
  | stored n sl hi hlive hframe hwf hslots hdraws =>
    obtain ⟨hstate, hfresh⟩ := hframe
    refine hs.of_set hcfg hslots hdraws.ge ?_ (fun _ m hmn hm => ?_) hsticky hport
    · rw [hcfg, hdraws]
      exact hwf _ _ (hs.slots n)
    · rw [hfresh]
      exact hs.streams m n hmn hm hlive
  | freed n hi hlive hslots hdraws =>
    exact hs.of_set hcfg hslots hdraws.ge (Slot.released_wf _ _) (fun hl => absurd hl (by decide)) hsticky hport
  | created n hi hlive hok hdims hfits hslots hdraws =>
    obtain ⟨hw, hh⟩ := hdims
    refine hs.of_set hcfg hslots (hdraws ▸ Nat.le_succ _) ?_ (fun _ m _ hm => ((hs.slots m).drawn hm).ne) hsticky hport
    rw [hcfg, hdraws]
    exact Slot.allocated_wf hw hh hfits

/-- A state with no buffer and no error showing meets the invariant. -/
theorem inv_of_unused_table {t : State} (hc : t.cfg.Wf) (hslots : t.slots = List.replicate t.cfg.numSlots Slot.unused)
    (hcode : t.code = .ok) (hport : t.payload = []) : t.Inv := by
  have hslot : ∀ n, t.slot n = Slot.unused := fun n =>
    (State.slot_congr (s := State.resetWith t.cfg) hslots n).trans (State.slot_resetWith t.cfg n)
  exact
    { config := hc
      table := by rw [hslots, List.length_replicate]
      slots := fun n => hslot n ▸ Slot.unused_wf _ _
      streams := fun m n _ hm => absurd hm (by rw [hslot]; decide)
      sticky := fun h => absurd hcode h
      port := hport }

theorem resetWith_inv {c : Config} (hc : c.Wf) : (State.resetWith c).Inv := inv_of_unused_table hc rfl rfl rfl

theorem applyReset_inv {s : State} (hc : s.cfg.Wf) : s.applyReset.Inv := inv_of_unused_table hc rfl rfl rfl

/-- Settles O4: by the ways a step can go; a command's is `exec_keeps_inv`, and reset leaves only unused slots. -/
theorem everyStepKeepsTheInvariant : Obligations.EveryStepKeepsTheInvariant := by
  intro s t hs h
  cases step_cases h with
  | idle hp ht => exact ht ▸ hs
  | reset rest hp ht => exact ht ▸ applyReset_inv hs.config
  | read off rest hp ht => exact ht ▸ hs.of_same_table rfl rfl rfl hs.sticky hs.port
  | write off v p ok rest hp h0 ht =>
    obtain ⟨x, y, z, hw⟩ := writeWindow_frame off v { s with pending := rest }
    exact ht ▸ hw ▸ hs.of_same_table rfl rfl rfl hs.sticky hs.port
  | bad v p ok rest hp hd ht => exact ht ▸ hs.of_same_table rfl rfl rfl (fun _ => rfl) rfl
  | command v p ok rest i hp hd ht =>
    have hq : ({ s with pending := rest } : State).Inv := hs.of_same_table rfl rfl rfl hs.sticky hs.port
    exact exec_keeps_inv hq ht

/-- Settles O3. -/
theorem invariantHoldsAfterReset : Obligations.InvariantHoldsAfterReset :=
  ⟨fun _ hc => resetWith_inv hc, resetWith_inv (c := Config.chosen) (by decide)⟩

/-! ### The frame of memory and the states of slots -/

/-- A command that stores nothing leaves the whole table (20_memory.md R58). -/
theorem Ends.slots_of_not_changesSlot {i : Instr} {s t : State} (h : Ends i s t) (hi : changesSlot i = false) :
    t.slots = s.slots := by
  rcases h with ⟨c, -, rfl⟩ | ⟨u, out, rfl, hu, -⟩
  · rfl
  · rcases hu.slots with hsame | ⟨hstores, -⟩
    · exact hsame
    · rw [hi] at hstores
      cases hstores

/-- A command changes no slot but the one it names. -/
theorem Ends.slot_of_not_named {i : Instr} {s t : State} (h : Ends i s t) {m : SlotField} (hm : i.slot? ≠ some m) :
    t.slot m = s.slot m := by
  rcases h with ⟨c, -, rfl⟩ | ⟨u, out, rfl, hu, -⟩
  · rfl
  · rw [State.slot_succeed]
    rcases hu.slots with hsame | ⟨-, n, sl, hn, hset⟩
    · exact State.slot_congr hsame m
    · have hmn : ¬ (m = n ∧ n.toNat < s.slots.length) := fun e => hm (e.1 ▸ hn)
      rw [State.slot_of_set hset, if_neg hmn]

/-- Where setting one entry changed what is read, it is that entry that was read. -/
theorem State.eq_of_slot_ne {s t : State} {m n : SlotField} {sl : Slot} (h : t.slots = s.slots.set m.toNat sl)
    (hne : t.slot n ≠ s.slot n) : n = m ∧ t.slot n = sl := by
  rw [State.slot_of_set h n] at hne ⊢
  split at hne
  · rw [if_pos ‹_›]
    exact ⟨And.left ‹_›, rfl⟩
  · exact absurd rfl hne

/-- The ways a slot a command has changed can have changed. -/
theorem slotChange_of_exec {i : Instr} {s t : State} {n : SlotField} (h : exec i s = .next t) (hne : t.slot n ≠ s.slot n) :
    ((i = .pbset n ∨ i = .pbalpha n ∨ i = .pbfill n) ∧ (t.slot n).state = (s.slot n).state) ∨
    (i = .pbfree n ∧ (s.slot n).isLive ∧ t.slot n = Slot.released) ∨
    (i = .pbcreate n ∧ ¬ (s.slot n).isLive ∧ t.code = .ok ∧ (t.slot n).isLive) := by
  cases tableChange_of_exec h with
  | kept hslots hdraws => exact absurd (State.slot_congr hslots n) hne
  | stored m sl hi hlive hframe hwf hslots hdraws =>
    obtain ⟨rfl, hslot⟩ := State.eq_of_slot_ne hslots hne
    exact .inl ⟨hi, hslot ▸ hframe.1⟩
  | freed m hi hlive hslots hdraws =>
    obtain ⟨rfl, hslot⟩ := State.eq_of_slot_ne hslots hne
    exact .inr (.inl ⟨hi, hlive, hslot⟩)
  | created m hi hlive hok hdims hfits hslots hdraws =>
    obtain ⟨rfl, hslot⟩ := State.eq_of_slot_ne hslots hne
    exact .inr (.inr ⟨hi, hlive, hok, congrArg Slot.state hslot⟩)

/-- Settles O11: the frame of a command that stores nothing, and the ways a slot can have changed; PBCREATE's starts from a slot that is
not live. -/
theorem memoryChangesOnlyByTheStoringCommands : Obligations.MemoryChangesOnlyByTheStoringCommands := by
  intro i s t h
  refine ⟨(ends_of_exec h).slots_of_not_changesSlot, fun n a hl hbyte => ?_⟩
  rcases slotChange_of_exec h (fun e => hbyte (by rw [e])) with ⟨hi, -⟩ | ⟨hi, -⟩ | ⟨-, hgone, -⟩
  · tauto
  · exact .inr (.inr (.inr hi))
  · exact absurd hl hgone

/-- Settles O12: storing keeps the state, PBFREE leaves a released slot, PBCREATE a live one. -/
theorem slotStatesChangeOnlyByCreateAndFree : Obligations.SlotStatesChangeOnlyByCreateAndFree := by
  intro i s t n h hne
  rcases slotChange_of_exec h (fun e => hne (by rw [e])) with ⟨-, hstate⟩ | ⟨hi, hl, hslot⟩ | ⟨hi, hgone, hok, hl⟩
  · exact absurd hstate hne
  · exact .inr ⟨hi, hl, by rw [hslot]; rfl⟩
  · exact .inl ⟨hi, hok, hgone, hl⟩

end Sys2Proof.Machine

/-! ## Reports, replies and the register window (10_state.md sections 1 and 2; 60_exceptions.md section 2): the facts its statements need,
then the statements -/

namespace Sys2Proof.Machine

/-! ### What a command leaves in STATUS and in the replies -/

theorem Ends.sticky_of_ok {i : Instr} {s t : State} (h : Ends i s t) (ht : t.code = .ok) : t.sticky = s.sticky := by
  rcases h with ⟨c, hc, rfl⟩ | ⟨u, out, rfl, hu, -⟩
  · exact absurd ht hc
  · exact hu.sticky

/-- STATUS after a success shows STICKY alone (10_state.md R24). -/
theorem statusOf_ok (b : Bool) : statusOf .ok b = if b then 0x100#32 else 0#32 := by
  cases b <;> decide

/-- Settles O7. -/
theorem aSuccessKeepsSticky : Obligations.ASuccessKeepsSticky := by
  intro i s t h ht
  have hsticky : t.sticky = s.sticky := (ends_of_exec h).sticky_of_ok ht
  exact ⟨hsticky, by rw [State.statusWord, ht, hsticky, statusOf_ok]⟩

/-- A command delivers one response (30_encoding.md R71). -/
theorem Ends.replies {i : Instr} {s t : State} (h : Ends i s t) : ∃ r, t.replies = r :: s.replies := by
  rcases h with ⟨c, -, rfl⟩ | ⟨u, out, rfl, hu, -⟩
  · exact ⟨_, rfl⟩
  · exact ⟨.command (statusOf .ok u.sticky) out, by rw [State.succeed_replies, hu.replies]⟩

/-- Settles O14: a command and a read deliver one reply, and every other step none. -/
theorem deliveredRepliesNeverChange : Obligations.DeliveredRepliesNeverChange := by
  intro s t h
  cases step_cases h with
  | idle hp ht => exact .inl (by rw [ht])
  | reset rest hp ht => exact .inl (by rw [ht]; rfl)
  | read off rest hp ht => exact .inr ⟨_, by rw [ht]; rfl⟩
  | write off v p ok rest hp h0 ht =>
    obtain ⟨x, y, z, hw⟩ := writeWindow_frame off v { s with pending := rest }
    exact .inl (by rw [ht, hw])
  | bad v p ok rest hp hd ht => exact .inr ⟨_, by rw [ht]; rfl⟩
  | command v p ok rest i hp hd ht => exact .inr (ends_of_exec ht).replies

/-! ### The operand registers -/

/-- Settles O9: a write of an operand register is at its own offset, and no command and no read writes one. -/
theorem operandRegistersKeepTheHostsValue : Obligations.OperandRegistersKeepTheHostsValue := by
  intro s t h hr
  cases step_cases h with
  | idle hp ht => exact ht ▸ ⟨fun _ => rfl, fun _ => rfl, fun _ => rfl⟩
  | reset rest hp ht => exact absurd hp (hr rest)
  | read off rest hp ht => exact ht ▸ ⟨fun _ => rfl, fun _ => rfl, fun _ => rfl⟩
  | write off v p ok rest hp h0 ht =>
    rcases writeWindow_cases off v { s with pending := rest } with hw | ⟨hoff, hw⟩ | ⟨hoff, hw⟩ | ⟨hoff, hw⟩ <;> rw [ht, hw]
    · exact ⟨fun _ => rfl, fun _ => rfl, fun _ => rfl⟩
    · exact ⟨fun hne => absurd (hoff ▸ hp) (hne v p ok rest), fun _ => rfl, fun _ => rfl⟩
    · exact ⟨fun _ => rfl, fun hne => absurd (hoff ▸ hp) (hne v p ok rest), fun _ => rfl⟩
    · exact ⟨fun _ => rfl, fun _ => rfl, fun hne => absurd (hoff ▸ hp) (hne v p ok rest)⟩
  | bad v p ok rest hp hd ht => exact ht ▸ ⟨fun _ => rfl, fun _ => rfl, fun _ => rfl⟩
  | command v p ok rest i hp hd ht =>
    obtain ⟨h0, h1, h2⟩ := (ends_of_exec ht).operands
    exact ⟨fun _ => h0, fun _ => h1, fun _ => h2⟩

/-! ### The register window (10_state.md R28) -/

/-- A read where no register stands, or of CMD, delivers 0. -/
theorem readWindow_of_unmapped {off : Nat} (h : off ∉ [0x04, 0x08, 0x10, 0x18, 0x20, 0x28, 0x30]) (s : State) :
    readWindow off s = 0 := by
  simp only [List.mem_cons, List.not_mem_nil, or_false, not_or] at h
  obtain ⟨h1, h2, h3, h4, h5, h6, h7⟩ := h
  simp only [readWindow, h1, h2, h3, h4, h5, h6, h7, if_false]

/-- Settles O17: a read is `readWindow`, a write of CMD issues its word, any other write is `writeWindow`. -/
theorem theRegisterWindowReadsAndWrites : Obligations.TheRegisterWindowReadsAndWrites := by
  refine ⟨fun s off rest hp => ⟨readWindow off { s with pending := rest }, step_of_read hp, ?_⟩, fun s off v p ok rest hp => ?_⟩
  · refine ⟨?_, ?_, ?_, ?_, ?_, ?_, ?_, fun hoff => readWindow_of_unmapped hoff _⟩
    all_goals rintro rfl; rfl
  · refine ⟨?_, ?_, ?_, ?_, fun hoff => ?_⟩
    · rintro rfl; exact step_eq_issue hp
    · rintro rfl; exact step_of_write hp (by decide)
    · rintro rfl; exact step_of_write hp (by decide)
    · rintro rfl; exact step_of_write hp (by decide)
    · simp only [List.mem_cons, List.not_mem_nil, or_false, not_or] at hoff
      exact step_of_ignored_write hp hoff

/-! ### Lines of a host program (30_encoding.md R80) -/

/-- The word a line puts at CMD is the one the block takes: the low half of its zero extension. -/
theorem extract_zext64 (w : Word) : (zext64 w).extractLsb' 0 32 = w := by
  rw [zext64, BitVec.extractLsb'_setWidth_of_le (by decide), BitVec.extractLsb'_eq_self]

/-- A line that puts a word at CMD issues it with its payload and draw. -/
theorem step_of_word_line {s : State} {w : Word} {p : List Byte} {ok : Bool} {rest : List HostAction}
    (hp : s.pending = .write HostReg.cmd.offset (zext64 w) p ok :: rest) : step s = issue w (Claim.started s rest p ok) := by
  rw [step_eq_issue hp, extract_zext64]

/-- A line that puts a command's word at CMD runs that command. -/
theorem step_of_command_line {s : State} {i : Instr} {p : List Byte} {ok : Bool} {rest : List HostAction}
    (hp : s.pending = .write HostReg.cmd.offset (zext64 (encode i)) p ok :: rest) :
    step s = exec i (Claim.started s rest p ok) := by
  rw [step_of_word_line hp, issue, decode_encode]

/-- Settles O23. -/
theorem programLinesDoWhatTheySay : Obligations.ProgramLinesDoWhatTheySay := by
  intro s rest ok
  refine ⟨fun i hp => step_of_command_line hp, fun n p hp => step_of_command_line hp, fun w p hp => step_of_word_line hp,
    fun v hp => step_of_write hp (by decide), fun v hp => step_of_write hp (by decide), fun v hp => step_of_write hp (by decide),
    fun v r hr hp => ?_, step_of_read, step_of_read, step_of_read, step_of_read, step_of_read, step_of_read, step_of_read⟩
  refine step_of_ignored_write hp ?_
  simp only [List.mem_cons, List.not_mem_nil, or_false] at hr
  rcases hr with rfl | rfl | rfl | rfl <;> decide

end Sys2Proof.Machine

/-! ## What a command sees of the slot table (41_pixel.md R140; 10_state.md R31): the facts, then the statements -/

namespace Sys2Proof.Machine

/-! ### A command over another table -/

/-- The state over another slot table. -/
def State.withTable (s : State) (l : List Slot) : State := { s with slots := l }

section
variable (s : State) (l : List Slot)

@[simp] theorem State.withTable_reg (r : DataReg) : (s.withTable l).reg r = s.reg r := by cases r <;> rfl
@[simp] theorem State.withTable_op32 (r : DataReg) : (s.withTable l).op32 r = s.op32 r := by simp [State.op32]
@[simp] theorem State.withTable_opHigh32 (r : DataReg) : (s.withTable l).opHigh32 r = s.opHigh32 r := by simp [State.opHigh32]
@[simp] theorem State.withTable_opS32 (r : DataReg) : (s.withTable l).opS32 r = s.opS32 r := by simp [State.opS32]
@[simp] theorem State.withTable_opU64 (r : DataReg) : (s.withTable l).opU64 r = s.opU64 r := by simp [State.opU64]
@[simp] theorem State.withTable_opS64 (r : DataReg) : (s.withTable l).opS64 r = s.opS64 r := by simp [State.opS64]

/-! The next three are rewritten with by `simp` as equations (not by unfolding, which would evaluate the values written). -/

theorem State.withTable_setReg (r : DataReg) (v : Dword) : (s.withTable l).setReg r v = (s.setReg r v).withTable l := by
  cases r <;> rfl
theorem State.withTable_succeed (out : List Byte) : (s.withTable l).succeed out = (s.succeed out).withTable l := by
  cases s; rfl
theorem State.withTable_raise (c : Code) : (s.withTable l).raise c = (s.raise c).withTable l := by
  cases s; rfl

@[simp] theorem State.withTable_cfg : (s.withTable l).cfg = s.cfg := rfl
@[simp] theorem State.withTable_allocOk : (s.withTable l).allocOk = s.allocOk := rfl

end

/-- Two entries a command cannot tell apart: the same buffer, or two slots without one, EMPTY or DISPOSED (10_state.md R31). -/
structure SeenAlike (sl sl' : Slot) : Prop where
  live : sl'.isLive ↔ sl.isLive
  buffer : sl.isLive → sl' = sl
  w : sl'.w = sl.w
  h : sl'.h = sl.h

theorem SeenAlike.of_eq {sl sl' : Slot} (h : sl' = sl) : SeenAlike sl sl' := by
  subst h
  exact ⟨Iff.rfl, fun _ => rfl, rfl, rfl⟩

/-- An EMPTY slot and the same DISPOSED: neither is LIVE. -/
theorem SeenAlike.disposed {sl : Slot} (h : sl.state = .empty) : SeenAlike sl { sl with state := .disposed } := by
  have hl : ¬ sl.isLive := by rw [Slot.isLive, h]; decide
  exact ⟨iff_of_false nofun hl, fun hlive => absurd hlive hl, rfl, rfl⟩

theorem State.withTable_onLive {s t t' : State} {l : List Slot} {n : SlotField} (h : SeenAlike (s.slot n) ((s.withTable l).slot n))
    (ht : (s.slot n).isLive → t' = t.withTable l) : (s.withTable l).onLive n t' = (s.onLive n t).withTable l := by
  by_cases hl : (s.slot n).isLive
  · rw [State.onLive_of_live hl, State.onLive_of_live (h.live.mpr hl), ht hl]
  · rw [State.onLive_of_not_live hl, State.onLive_of_not_live (mt h.live.mp hl), State.withTable_raise]

/-- The effect of a command that stores nothing sees no slot but the one the command names (40_codec.md R100; 41_pixel.md R140). -/
theorem effectOf_withTable {i : Instr} {s : State} {l : List Slot} (hi : changesSlot i = false)
    (h : ∀ n, i.slot? = some n → SeenAlike (s.slot n) ((s.withTable l).slot n)) :
    effectOf i (s.withTable l) = (effectOf i s).withTable l := by
  cases i with
  | pbcreate _ | pbset _ | pbalpha _ | pbfill _ | pbfree _ => cases hi
  | mkid => simp only [effectOf, mkidEffect, State.returnId, State.withTable_op32, State.withTable_setReg, State.withTable_succeed]
  | pack2 => simp only [effectOf, pack2Effect, State.withTable_op32, State.withTable_setReg, State.withTable_succeed]
  | unpack2 =>
    simp only [effectOf, unpack2Effect, State.withTable_opHigh32, State.withTable_op32, State.withTable_setReg, State.withTable_succeed]
  | t2ms => simp only [effectOf, t2msEffect, State.withTable_opS64, State.withTable_setReg, State.withTable_succeed]
  | fourcc =>
    simp only [effectOf, fourccEffect, State.withTable_opU64, State.withTable_op32, State.withTable_cfg]
    split <;> rfl
  | mkidfcc =>
    simp only [effectOf, mkidfccEffect, State.withTable_opU64, State.withTable_op32, State.withTable_cfg]
    split <;> rfl
  | ms2t =>
    simp only [effectOf, ms2tEffect, State.withTable_reg]
    split <;> rfl
  | idfor =>
    simp only [effectOf, idforEffect, State.withTable_op32, State.withTable_cfg]
    split <;> rfl
  | pbget n =>
    refine State.withTable_onLive (h n rfl) fun hl => ?_
    simp only [(h n rfl).buffer hl, State.withTable_opS32, State.withTable_cfg]
    split <;> rfl
  | pbread n =>
    refine State.withTable_onLive (h n rfl) fun hl => ?_
    rw [(h n rfl).buffer hl, State.withTable_succeed]
  | pbdim n =>
    simp only [effectOf, pbdimEffect, (h n rfl).w, (h n rfl).h, State.withTable_setReg, State.withTable_succeed]
  | pbsize n =>
    simp only [effectOf, pbsizeEffect, Slot.size, Slot.count, Slot.width, Slot.height, (h n rfl).w, (h n rfl).h,
      State.withTable_setReg, State.withTable_succeed]
  | pbstride n =>
    simp only [effectOf, pbstrideEffect, Slot.stride, Slot.width, (h n rfl).w, State.withTable_setReg, State.withTable_succeed]

/-- `t'` is `t` over another table: both tables were left, or the same entry was set in both. -/
inductive SameOver (s : State) (l : List Slot) (t t' : State) : Prop where
  | kept (ht : t' = t.withTable l) (hslots : t.slots = s.slots)
  | set (n : SlotField) (sl : Slot) (ht : t' = t.withTable (l.set n.toNat sl)) (hslots : t.slots = s.slots.set n.toNat sl)

theorem SameOver.raise (s : State) (l : List Slot) (c : Code) :
    SameOver s l (s.raise c) ((s.withTable l).raise c) := .kept (State.withTable_raise s l c) rfl

theorem SameOver.ite {s : State} {l : List Slot} {a a' b b' : State} {p p' : Prop} [Decidable p] [Decidable p']
    (hp : p' ↔ p) (ha : p → SameOver s l a a') (hb : SameOver s l b b') :
    SameOver s l (if p then a else b) (if p' then a' else b') := by
  by_cases h : p
  · rw [if_pos h, if_pos (hp.mpr h)]
    exact ha h
  · rw [if_neg h, if_neg (mt hp.mp h)]
    exact hb

/-- Every effect is the same over another table, whose entry for the slot the command names it cannot tell apart. -/
theorem effectOf_sameOver {i : Instr} {s : State} {l : List Slot}
    (h : ∀ n, i.slot? = some n → SeenAlike (s.slot n) ((s.withTable l).slot n)) :
    SameOver s l (effectOf i s) (effectOf i (s.withTable l)) := by
  have hraise := SameOver.raise s l
  cases hi : changesSlot i with
  | false => exact .kept (effectOf_withTable hi h) ((effectOf_ends i s).slots_of_not_changesSlot hi)
  | true =>
    cases i with
    | fourcc | mkid | mkidfcc | pack2 | unpack2 | t2ms | ms2t | idfor | pbget _ | pbread _ | pbdim _ | pbsize _ | pbstride _ =>
      cases hi
    | pbcreate n =>
      simp only [effectOf, pbcreateEffect, State.withTable_opS32, State.withTable_op32, State.withTable_cfg, State.withTable_allocOk]
      refine .ite (h n rfl).live (fun _ => hraise _) ?_
      refine .ite Iff.rfl (fun _ => hraise _) ?_
      refine .ite Iff.rfl (fun _ => hraise _) ?_
      refine .ite Iff.rfl (fun _ => hraise _) ?_
      exact .set n _ rfl rfl
    | pbset n =>
      refine .ite (h n rfl).live (fun hl => ?_) (hraise _)
      simp only [(h n rfl).buffer hl, State.withTable_opS32, State.withTable_op32, State.withTable_cfg]
      split
      · exact hraise _
      · exact .set n _ rfl rfl
    | pbalpha n =>
      refine .ite (h n rfl).live (fun hl => ?_) (hraise _)
      rw [(h n rfl).buffer hl]
      exact .set n _ rfl rfl
    | pbfill n =>
      refine .ite (h n rfl).live (fun hl => ?_) (hraise _)
      rw [(h n rfl).buffer hl]
      refine .ite Iff.rfl (fun _ => hraise _) ?_
      exact .set n _ rfl rfl
    | pbfree n =>
      by_cases hl : (s.slot n).isLive
      · rw [effectOf, effectOf, pbfreeEffect_of_live hl, pbfreeEffect_of_live ((h n rfl).live.mpr hl)]
        exact .set n _ rfl rfl
      · rw [effectOf, effectOf, pbfreeEffect_of_not_live hl, pbfreeEffect_of_not_live (mt (h n rfl).live.mp hl)]
        exact .kept (State.withTable_succeed s l []) rfl

/-- Every command is the same over such a table. -/
theorem exec_sameOver {i : Instr} {s : State} {l : List Slot}
    (h : ∀ n, i.slot? = some n → SeenAlike (s.slot n) ((s.withTable l).slot n)) :
    ∃ t t', exec i s = .next t ∧ exec i (s.withTable l) = .next t' ∧ SameOver s l t t' := by
  refine ⟨_, _, exec_next i s, exec_next i (s.withTable l), ?_⟩
  exact .ite Iff.rfl (fun _ => effectOf_sameOver h) (.raise s l _)

/-- What a slot reads as after both: the same, or what it was before in each. -/
theorem SameOver.slot {s t t' : State} {l : List Slot} (h : SameOver s l t t') (hlen : l.length = s.slots.length)
    (m : SlotField) : t'.slot m = t.slot m ∨ t'.slot m = (s.withTable l).slot m ∧ t.slot m = s.slot m := by
  cases h with
  | kept ht hslots => exact .inr ⟨State.slot_congr (by rw [ht]; rfl) m, State.slot_congr hslots m⟩
  | set n sl ht hslots =>
    have hslots' : t'.slots = (s.withTable l).slots.set n.toNat sl := by rw [ht]; rfl
    have hlen' : (s.withTable l).slots.length = s.slots.length := hlen
    rw [State.slot_of_set hslots, State.slot_of_set hslots', hlen']
    split
    · exact .inl rfl
    · exact .inr ⟨rfl, rfl⟩

/-- What the host sees of both, and the draws. -/
theorem SameOver.seen {s t t' : State} {l : List Slot} (h : SameOver s l t t') :
    t'.code = t.code ∧ t'.sticky = t.sticky ∧ t'.r0 = t.r0 ∧ t'.r1 = t.r1 ∧ t'.replies = t.replies ∧ t'.draws = t.draws := by
  cases h with
  | kept ht hslots => subst ht; exact ⟨rfl, rfl, rfl, rfl, rfl, rfl⟩
  | set n sl ht hslots => subst ht; exact ⟨rfl, rfl, rfl, rfl, rfl, rfl⟩

/-! ### The statements -/

/-- Settles O50: the two tables hold the same entry for the slot the command names. -/
theorem pbuCommandsSeeOnlyTheirOwnSlot : Obligations.PbuCommandsSeeOnlyTheirOwnSlot := by
  intro i n s others hi hlen hslot
  have hslot' : (s.withTable others).slot n = s.slot n := hslot
  have halike : ∀ m, i.slot? = some m → SeenAlike (s.slot m) ((s.withTable others).slot m) := fun m hm => by
    obtain rfl : n = m := Option.some.inj (hi.symm.trans hm)
    exact .of_eq hslot'
  obtain ⟨t, t', ht, ht', hsame⟩ := exec_sameOver halike
  obtain ⟨hcode, hsticky, hr0, hr1, hreplies, hdraws⟩ := hsame.seen
  refine ⟨t, t', ht, ht', hcode, hsticky, hr0, hr1, hreplies, hdraws, ?_, fun m hmn => ?_⟩
  · rcases hsame.slot hlen n with h | ⟨h', h⟩
    · exact h
    · rw [h', h, hslot']
  · have hm : i.slot? ≠ some m := fun hm => hmn (Option.some.inj (hm.symm.trans hi))
    exact ⟨(ends_of_exec ht).slot_of_not_named hm, (ends_of_exec ht').slot_of_not_named hm⟩

/-- Settles O13: a command cannot tell an EMPTY slot from a DISPOSED one. -/
theorem emptyAndDisposedBehaveAlike : Obligations.EmptyAndDisposedBehaveAlike := by
  intro i s n hn hempty
  have hset : ∀ m, (Claim.withSlot s n { s.slot n with state := .disposed }).slot m =
      if m = n then { s.slot n with state := .disposed } else s.slot m := fun m => by
    rw [State.slot_of_set (s := s) rfl m]
    simp [hn]
  have halike : ∀ m, i.slot? = some m →
      SeenAlike (s.slot m) ((Claim.withSlot s n { s.slot n with state := .disposed }).slot m) := fun m _ => by
    rw [hset]
    split
    · rename_i hmn
      subst hmn
      exact .disposed hempty
    · exact .of_eq rfl
  obtain ⟨t, t', ht, ht', hsame⟩ := exec_sameOver (l := s.slots.set n.toNat { s.slot n with state := .disposed }) halike
  obtain ⟨hcode, hsticky, hr0, hr1, hreplies, -⟩ := hsame.seen
  refine ⟨t, t', ht, ht', hcode, hsticky, hr0, hr1, hreplies, fun m hmn => ?_, ?_⟩
  · rcases hsame.slot List.length_set m with h | ⟨h', h⟩
    · exact h
    · exact (h'.trans ((hset m).trans (if_neg hmn))).trans h.symm
  · rcases hsame.slot List.length_set n with h | ⟨h', h⟩
    · rw [h]
      exact ⟨rfl, Iff.rfl⟩
    · rw [h'.trans ((hset n).trans (if_pos rfl)), h]
      exact ⟨rfl, (SeenAlike.disposed hempty).live⟩

end Sys2Proof.Machine

/-! ## Images and round trips of the codec unit (40_codec.md sections 2 and 4): the facts, then the statements -/

namespace Sys2Proof.Machine

/-! ### The lanes of a pair -/

theorem lane_packIntPair_low (a b : Word) {k : Nat} (hk : k < 4) : lane (packIntPair a b) k = lane b k :=
  BitVec.extractLsb'_append_eq_of_add_le (by omega)

theorem lane_packIntPair_high (a b : Word) (k : Nat) : lane (packIntPair a b) (4 + k) = lane a k := by
  rw [lane, packIntPair, BitVec.extractLsb'_append_eq_of_le (by omega), lane]
  congr 1
  omega

/-- The little-endian image of a pair is the image a little-endian host stores (40_codec.md R108, R110). -/
theorem bytesOf_little_packIntPair (a b : Word) : bytesOf .little 8 (packIntPair a b) = encodeLittleEndianPair a b := by
  have hsplit : List.range 8 = List.range 4 ++ (List.range 4).map (4 + ·) := rfl
  rw [bytesOf, hsplit, List.map_append, List.map_map, encodeLittleEndianPair, bytesOf, bytesOf]
  congr 1
  · exact List.map_congr_left fun k hk => lane_packIntPair_low a b (List.mem_range.mp hk)
  · exact List.map_congr_left fun k _ => lane_packIntPair_high a b k

/-- The big-endian image of a pair is the image a big-endian host stores (40_codec.md R108, R110). -/
theorem bytesOf_big_packIntPair (a b : Word) : bytesOf .big 8 (packIntPair a b) = encodeBigEndianPair a b := by
  have hsplit : List.range 8 = List.range 4 ++ (List.range 4).map (4 + ·) := rfl
  rw [bytesOf, hsplit, List.map_append, List.map_map, encodeBigEndianPair, bytesOf, bytesOf]
  congr 1
  · refine List.map_congr_left fun k hk => ?_
    have hk := List.mem_range.mp hk
    have hlane : laneOfByte .big 8 k = 4 + laneOfByte .big 4 k := by simp only [laneOfByte]; omega
    rw [hlane, lane_packIntPair_high]
  · refine List.map_congr_left fun k hk => ?_
    have hk := List.mem_range.mp hk
    have hlane : laneOfByte .big 8 (4 + k) = laneOfByte .big 4 k := by simp only [laneOfByte]; omega
    have hlow : laneOfByte .big 4 k < 4 := by simp only [laneOfByte]; omega
    rw [Function.comp_apply, hlane, lane_packIntPair_low a b hlow]

/-! ### The halves of a pair -/

theorem packIntPair_high (a b : Word) : (packIntPair a b).extractLsb' 32 32 = a := by
  rw [packIntPair, BitVec.extractLsb'_append_eq_of_le (by decide), BitVec.extractLsb'_eq_self]

theorem packIntPair_low (a b : Word) : (packIntPair a b).extractLsb' 0 32 = b := by
  rw [packIntPair, BitVec.extractLsb'_append_eq_of_add_le (by decide), BitVec.extractLsb'_eq_self]

/-- The low half of a sign extension is the value extended. -/
theorem sext64_low (v : Word) : (sext64 v).extractLsb' 0 32 = v := by
  refine BitVec.eq_of_getLsbD_eq fun k hk => ?_
  have hk64 : k < 64 := by omega
  rw [sext64, BitVec.getLsbD_extractLsb', BitVec.getLsbD_signExtend]
  simp [hk, hk64]

/-! ### The image of a FourCC value -/

/-- The image of a word put together from four bytes is those bytes (00_scope.md R11). -/
theorem bytesOf_wordInOrder (e : Endian) (b0 b1 b2 b3 : Byte) :
    bytesOf e 4 (Claim.wordInOrder e b0 b1 b2 b3) = [b0, b1, b2, b3] := by
  have hword : Claim.wordInOrder e b0 b1 b2 b3 = fromBytes e 32 [b0, b1, b2, b3] := by rw [fromBytes_four]; rfl
  rw [hword, bytesOf_fromBytes]

/-! ### The statements -/

/-- Settles O30: UNPACK2 takes the two halves of the pair apart, and sign extension keeps each below bit 32. -/
theorem packingThenUnpackingReturnsThePair : Obligations.PackingThenUnpackingReturnsThePair := by
  intro s hp
  refine ⟨_, _, exec_bcu rfl hp, exec_bcu rfl rfl, rfl, rfl, ?_, ?_⟩
  · exact (sext64_low _).trans (packIntPair_high _ _)
  · exact (sext64_low _).trans (packIntPair_low _ _)

/-- Settles O31. -/
theorem thePackedImageIsTheNamedPath : Obligations.ThePackedImageIsTheNamedPath := by
  intro s hp
  have hlittle := bytesOf_little_packIntPair (s.op32 .a0) (s.op32 .a1)
  have hbig := bytesOf_big_packIntPair (s.op32 .a0) (s.op32 .a1)
  refine ⟨_, exec_bcu rfl hp, hlittle, hbig, ?_, ?_⟩
  · exact (congrArg (List.take 4) hlittle).symm
  · exact (congrArg (List.take 4) hbig).symm

/-- Settles O32. -/
theorem theFourccImageIsThePaddedCode : Obligations.TheFourccImageIsThePaddedCode := by
  intro s hp hlow hhigh
  obtain ⟨-, hfourcc⟩ := fourccPacksTheCodeInNativeOrder
  refine ⟨_, (hfourcc s hp).1 ⟨hlow, hhigh⟩, rfl, packIntPair_high _ _, ?_⟩
  have hr0 : (0#32 ++ Claim.codeWord s).extractLsb' 0 32 = Claim.codeWord s := packIntPair_low _ _
  exact (congrArg (bytesOf s.cfg.endian 4) hr0).trans (bytesOf_wordInOrder _ _ _ _ _)

end Sys2Proof.Machine

/-! ## Commands in sequence on one slot (20_memory.md sections 1 to 3; 41_pixel.md section 7): the facts, then the statements -/

namespace Sys2Proof.Machine

/-! ### The state after a command has stored into a live slot -/

/-- The report of a command that gave slot n the written bytes `m`. -/
def State.stored (s : State) (n : SlotField) (m : Memory) : State :=
  Claim.completed (Claim.withSlot s n (Claim.withMem (s.slot n) m)) []

theorem State.slot_stored {s : State} {n : SlotField} (hn : n.toNat < s.slots.length) (m : Memory) :
    (s.stored n m).slot n = Claim.withMem (s.slot n) m :=
  State.slot_setSlot_same s n _ hn

theorem State.stored_starts {s : State} {n : SlotField} (hn : n.toNat < s.cfg.numSlots) (m : Memory) :
    Claim.Starts (s.stored n m) n := ⟨hn, rfl⟩

theorem State.stored_live {s : State} {n : SlotField} (hl : (s.slot n).isLive) (m : Memory) : ((s.stored n m).slot n).isLive := by
  rw [State.slot_stored (State.lt_length_of_live hl)]
  exact hl

theorem State.byteSize_stored {s : State} {n : SlotField} (hl : (s.slot n).isLive) (m : Memory) :
    Claim.byteSize ((s.stored n m).slot n) = Claim.byteSize (s.slot n) := by
  rw [State.slot_stored (State.lt_length_of_live hl)]
  rfl

@[simp] theorem State.stored_cfg (s : State) (n : SlotField) (m : Memory) : (s.stored n m).cfg = s.cfg := rfl

/-- A pixel word is made of its four bytes. -/
theorem pixelWord_congr {sl sl' : Slot} (e : Endian) {a : Nat} (h : ∀ k < 4, sl'.byte (a + k) = sl.byte (a + k)) :
    Claim.pixelWord e sl' a = Claim.pixelWord e sl a := by
  rw [← Slot.readWord_eq_pixelWord, ← Slot.readWord_eq_pixelWord]
  exact Slot.readWord_congr e a h

/-! ### PBALPHA in bytes (41_pixel.md R144) -/

/-- The lanes of the alpha mask: lane 3 is all ones, the others 0. -/
theorem lane_alphaMask {k : Nat} (hk : k < 4) : lane (0xFF000000 : Word) k = if k = 3 then 0xFF else 0 := by
  interval_cases k <;> rfl

/-- The byte of a pixel that holds lane 3. -/
def alphaByte : Endian → Nat
  | .little => 3
  | .big => 0

theorem laneOfByte_eq_three (e : Endian) {k : Nat} (hk : k < 4) : laneOfByte e 4 k = 3 ↔ k = alphaByte e := by
  cases e with
  | little => exact Iff.rfl
  | big => simp only [laneOfByte, alphaByte]; omega

theorem laneOfByte_lt (e : Endian) {k : Nat} (hk : k < 4) : laneOfByte e 4 k < 4 := by
  cases e with
  | little => exact hk
  | big => simp only [laneOfByte]; omega

/-- Everything PBALPHA's loop does to what is read: the alpha byte of each of its pixels becomes 0xFF. -/
theorem Slot.byte_alphaPixels (sl : Slot) (e : Endian) (n a : Nat) :
    (sl.alphaPixels e n).byte a = if a < 4 * n ∧ a % 4 = alphaByte e then 0xFF else sl.byte a := by
  rcases Nat.lt_or_ge a (4 * n) with ha | ha
  · have hk : a % 4 < 4 := Nat.mod_lt a (by decide)
    have hword : (sl.alphaPixels e n).readWord e (4 * (a / 4)) = sl.readWord e (4 * (a / 4)) ||| 0xFF000000 :=
      Slot.readWord_alphaPixels sl e n (by omega)
    have hbyte := Slot.lane_readWord (sl.alphaPixels e n) e (4 * (a / 4)) (a % 4) hk
    rw [hword, lane, BitVec.extractLsb'_or, ← lane, ← lane, Slot.lane_readWord sl e _ _ hk, lane_alphaMask (laneOfByte_lt e hk),
      Nat.div_add_mod] at hbyte
    rw [← hbyte]
    simp only [laneOfByte_eq_three e hk, ha, true_and]
    split
    · exact BitVec.or_allOnes
    · exact BitVec.or_zero
  · rw [Slot.byte_alphaPixels_beyond sl e n ha, if_neg (by omega)]

/-- PBALPHA on a live slot. -/
theorem exec_pbalpha_of_live {s : State} {n : SlotField} (hs : Claim.Starts s n) (hl : (s.slot n).isLive) :
    exec (.pbalpha n) s = .next (s.stored n ((s.slot n).alphaPixels s.cfg.endian (s.slot n).count.toNat).mem) := by
  rw [exec_pbu rfl hs, effectOf, pbalphaEffect, State.onLive_of_live hl, State.setSlot_succeed, State.stored,
    Slot.withMem_alphaPixels]

/-- The bytes PBALPHA leaves, its loop running over the COUNT pixels. -/
theorem byte_stored_alphaPixels {s : State} {n : SlotField} (hl : (s.slot n).isLive) (a : Nat) :
    ((s.stored n ((s.slot n).alphaPixels s.cfg.endian (s.slot n).count.toNat).mem).slot n).byte a =
      if (a : Int) < Claim.byteSize (s.slot n) ∧ a % 4 = alphaByte s.cfg.endian then 0xFF else (s.slot n).byte a := by
  have hin : a < 4 * (s.slot n).count.toNat ↔ (a : Int) < Claim.byteSize (s.slot n) := by
    rw [← Slot.size_eq_byteSize, Slot.size_eq_count]
    omega
  rw [State.slot_stored (State.lt_length_of_live hl), Slot.withMem_alphaPixels, Slot.byte_alphaPixels]
  simp only [hin]

/-- Settles O43: the second PBALPHA runs over the same pixels, whose alpha bytes are 0xFF already. -/
theorem pbalphaChangesOneByteAPixelAndIsIdempotent : Obligations.PbalphaChangesOneByteAPixelAndIsIdempotent := by
  intro s n hs hn hl
  refine ⟨_, _, exec_pbalpha_of_live ⟨hn, hs.port⟩ hl, exec_pbalpha_of_live (State.stored_starts hn _) (State.stored_live hl _),
    rfl, rfl, byte_stored_alphaPixels hl, fun a => ?_⟩
  rw [byte_stored_alphaPixels (State.stored_live hl _), byte_stored_alphaPixels hl, State.byteSize_stored hl, State.stored_cfg]
  split <;> rfl

/-! ### The bounds of pixels (20_memory.md R51, R57) -/

/-- Every pixel below the count is that of some coordinates: its column and its row. -/
theorem Slot.pixelIndex_surjective {sl : Slot} {i : Nat} (hw : 0 ≤ sl.width) (hi : (i : Int) < sl.count) :
    sl.pixelIndex (i % sl.width) (i / sl.width) = some i := by
  have hpos : 0 < sl.width := hw.lt_of_ne fun h0 => by
    rw [Slot.count, ← h0, zero_mul] at hi
    omega
  have hrow : (i : Int) / sl.width < sl.height := Int.ediv_lt_of_lt_mul hpos (by rwa [mul_comm])
  have hcol := Int.emod_lt_of_pos (i : Int) hpos
  have hcol0 := Int.emod_nonneg (i : Int) hpos.ne'
  have hrow0 : 0 ≤ (i : Int) / sl.width := Int.ediv_nonneg (by omega) hw
  rw [Slot.pixelIndex, if_neg (by omega), Int.emod_add_ediv_mul, Int.toNat_natCast]

/-- Operands in bounds have an index, whose word is at the address of the statements (20_memory.md R51). -/
theorem exists_pixelIndex {s : State} {n : SlotField} (h : Claim.InBounds s n) :
    ∃ i, (s.slot n).pixelIndex (Claim.firstS32 s) (Claim.secondS32 s) = some i ∧ 4 * i = Claim.pixelAddress s n :=
  ⟨_, pixelIndex_of_inBounds h, rfl⟩

/-- Every way a PBSET can go leaves its slot or writes one of its pixels. -/
theorem exec_pbset_slot {s t : State} {n : SlotField} (h : exec (.pbset n) s = .next t) :
    t.slot n = s.slot n ∨
      ∃ x y k v, (s.slot n).pixelIndex x y = some k ∧ t.slot n = (s.slot n).writeWord s.cfg.endian (4 * k) v := by
  rw [exec_next] at h
  obtain rfl := Host.Outcome.next.inj h
  split
  · by_cases hl : (s.slot n).isLive
    · rw [effectOf, pbsetEffect, State.onLive_of_live hl]
      split
      · exact .inl rfl
      · rename_i k hk
        exact .inr ⟨_, _, k, _, hk, State.slot_setSlot_same s n _ (State.lt_length_of_live hl)⟩
    · rw [effectOf, pbsetEffect, State.onLive_of_not_live hl]
      exact .inl rfl
  · exact .inl rfl

/-- A PBSET changes only bytes inside the memory. -/
theorem exec_pbset_inside {s t : State} {n : SlotField} (h : exec (.pbset n) s = .next t) {a : Nat}
    (ha : (t.slot n).byte a ≠ (s.slot n).byte a) : (a : Int) < Claim.byteSize (s.slot n) := by
  rcases exec_pbset_slot h with hsame | ⟨x, y, k, v, hk, hslot⟩
  · exact absurd (by rw [hsame]) ha
  · obtain ⟨hin, -⟩ := Slot.pixelIndex_inside hk
    rw [Slot.size_eq_byteSize] at hin
    rw [hslot, Slot.byte_writeWord] at ha
    split at ha
    · omega
    · exact absurd rfl ha

/-- The index of a coordinate depends on the dimensions alone. -/
theorem Slot.pixelIndex_congr {sl sl' : Slot} (hw : sl'.w = sl.w) (hh : sl'.h = sl.h) (x y : Int) :
    sl'.pixelIndex x y = sl.pixelIndex x y := by
  rw [Slot.pixelIndex, Slot.pixelIndex, Slot.width, Slot.width, Slot.height, Slot.height, hw, hh]

/-- Over a table whose entry has the same state, dimensions and bytes below SIZE, a PBGET is the same. -/
theorem exec_pbget_withTable {s : State} {n : SlotField} {l : List Slot} {sl : Slot} (hsl : (s.withTable l).slot n = sl)
    (hstate : sl.state = (s.slot n).state) (hw : sl.w = (s.slot n).w) (hh : sl.h = (s.slot n).h)
    (hbyte : ∀ a : Nat, (a : Int) < Claim.byteSize (s.slot n) → sl.byte a = (s.slot n).byte a) :
    ∃ t, exec (.pbget n) s = .next t ∧ exec (.pbget n) (s.withTable l) = .next (t.withTable l) := by
  have heffect : effectOf (.pbget n) (s.withTable l) = (effectOf (.pbget n) s).withTable l := by
    by_cases hl : (s.slot n).isLive
    · have hl' : ((s.withTable l).slot n).isLive := by rw [hsl]; exact hstate.trans hl
      rw [effectOf, effectOf, pbgetEffect, pbgetEffect, State.onLive_of_live hl, State.onLive_of_live hl', hsl]
      simp only [Slot.pixelIndex_congr hw hh, State.withTable_opS32, State.withTable_cfg]
      split
      · rfl
      · rename_i k hk
        obtain ⟨hin, -⟩ := Slot.pixelIndex_inside hk
        rw [Slot.size_eq_byteSize] at hin
        rw [Slot.readWord_congr _ _ fun j hj => hbyte (4 * k + j) (by omega)]
        rfl
    · have hl' : ¬ ((s.withTable l).slot n).isLive := by rw [hsl]; exact fun h => hl (hstate.symm.trans h)
      rw [effectOf, effectOf, pbgetEffect, pbgetEffect, State.onLive_of_not_live hl, State.onLive_of_not_live hl',
        State.withTable_raise]
  cases hc : commandLegal (.pbget n) s with
  | false => exact ⟨_, exec_illegal hc, (exec_illegal (s := s.withTable l) hc).trans (congrArg _ (State.withTable_raise s l _))⟩
  | true => exact ⟨_, exec_legal hc, (exec_legal (s := s.withTable l) hc).trans (congrArg _ heffect)⟩

/-- A slot given other written bytes: where the table lacks it, nothing was given. -/
theorem slot_withSlot (s : State) (n : SlotField) (sl : Slot) :
    (Claim.withSlot s n sl).slot n = sl ∨ (Claim.withSlot s n sl).slot n = s.slot n := by
  rw [State.slot_of_set (s := s) rfl n]
  split
  · exact .inl rfl
  · exact .inr rfl

/-- Settles O51: in-bounds coordinates and the pixels below the count correspond, row by row; PBSET writes a pixel's word, and PBGET reads
one. -/
theorem pixelWordsLieInsideTheMemory : Obligations.PixelWordsLieInsideTheMemory := by
  refine ⟨fun sl x y i h => ?_, fun sl i hw hi => ?_, fun s n h => ?_, fun s t n h a ha => exec_pbset_inside h ha,
    fun s n m hbyte => ?_⟩
  · obtain ⟨hin, hi, hx, hxw, hy, hyh⟩ := Slot.pixelIndex_inside h
    refine ⟨hx, hxw, hy, hyh, ?_, hin, fun x' y' h' => Slot.pixelIndex_injective h' h⟩
    rw [Slot.width] at hi
    push_cast
    rw [hi]
    ring
  · have hcount : (i : Int) < sl.count := by
      rw [← Slot.size_eq_byteSize, Slot.size_eq_count] at hi
      omega
    exact ⟨_, _, Slot.pixelIndex_surjective hw hcount⟩
  · exact exists_pixelIndex h
  · obtain ⟨t, ht, ht'⟩ : ∃ t, exec (.pbget n) s = .next t ∧
        exec (.pbget n) (Claim.withSlot s n (Claim.withMem (s.slot n) m)) =
          .next (t.withTable (s.slots.set n.toNat (Claim.withMem (s.slot n) m))) := by
      rcases slot_withSlot s n (Claim.withMem (s.slot n) m) with hsl | hsl
      · exact exec_pbget_withTable hsl rfl rfl rfl hbyte
      · exact exec_pbget_withTable hsl rfl rfl rfl fun _ _ => rfl
    exact ⟨t, _, ht, ht', rfl, rfl, rfl⟩

/-! ### A store, then a read (41_pixel.md section 7; 20_memory.md R55) -/

/-- A word whose bytes are a value's image is that value. -/
theorem pixelWord_of_image {sl : Slot} {e : Endian} {a : Nat} {v : Word} (h : ∀ k < 4, sl.byte (a + k) = Claim.imageByte e v k) :
    Claim.pixelWord e sl a = v := by
  rw [← Slot.readWord_eq_pixelWord, Slot.readWord_eq, show sl.byte a = _ from h 0 (by decide), h 1 (by decide), h 2 (by decide),
    h 3 (by decide)]
  simp only [← lane_laneOfByte_eq_imageByte]
  exact fromBytes_bytesOf e v

section
variable {s : State} {n : SlotField}

/-- An in-bounds pixel's word lies inside the memory. -/
theorem pixelAddress_inside (hin : Claim.InBounds s n) : (Claim.pixelAddress s n : Int) + 4 ≤ Claim.byteSize (s.slot n) := by
  obtain ⟨h, -⟩ := Slot.pixelIndex_inside (pixelIndex_of_inBounds hin)
  rw [Slot.size_eq_byteSize] at h
  exact_mod_cast h

/-- The words of two pixels of one slot share no byte. -/
theorem pixelAddress_disjoint {s' : State} (hslot : s'.slot n = s.slot n) (hin : Claim.InBounds s n) (hin' : Claim.InBounds s' n)
    (hne : Claim.firstS32 s' ≠ Claim.firstS32 s ∨ Claim.secondS32 s' ≠ Claim.secondS32 s) :
    Claim.pixelAddress s' n + 4 ≤ Claim.pixelAddress s n ∨ Claim.pixelAddress s n + 4 ≤ Claim.pixelAddress s' n := by
  obtain ⟨i, hi, haddr⟩ := exists_pixelIndex hin
  obtain ⟨j, hj, haddr'⟩ := exists_pixelIndex hin'
  rw [hslot] at hj
  have hij : i ≠ j := by
    rintro rfl
    obtain ⟨hx, hy⟩ := Slot.pixelIndex_injective hj hi
    exact hne.elim (· hx) (· hy)
  omega

/-- A PBSET of an in-bounds pixel, in the words of the statements. -/
theorem exec_pbset_stored (hs : Claim.Starts s n) (hl : (s.slot n).isLive) (hin : Claim.InBounds s n) :
    ∃ m, exec (.pbset n) s = .next (s.stored n m) ∧ ∀ a, (Claim.withMem (s.slot n) m).byte a =
      if Claim.pixelAddress s n ≤ a ∧ a < Claim.pixelAddress s n + 4
      then Claim.imageByte s.cfg.endian (s.a2.extractLsb' 0 32) (a - Claim.pixelAddress s n) else (s.slot n).byte a := by
  obtain ⟨-, hpbset⟩ := pbsetWritesThePixelWord
  obtain ⟨-, -, hstored⟩ := hpbset s n hs
  exact hstored hl hin

/-- A PBFILL that fits, in the words of the statements. -/
theorem exec_pbfill_stored (hn : n.toNat < s.cfg.numSlots) (hl : (s.slot n).isLive) {p : List Byte}
    (hp : (p.length : Int) ≤ Claim.byteSize (s.slot n)) :
    ∃ m, exec (.pbfill n) { s with payload := p } = .next (({ s with payload := p } : State).stored n m) ∧
      ∀ a, (Claim.withMem (s.slot n) m).byte a = match p[a]? with | some b => b | none => (s.slot n).byte a := by
  obtain ⟨-, hpbfill⟩ := pbfillCopiesThePayload
  obtain ⟨-, -, hstored⟩ := hpbfill { s with payload := p } n hn
  exact hstored hl hp

/-- A store keeps the dimensions, so that the same operands are in bounds. -/
theorem inBounds_stored (hl : (s.slot n).isLive) (m : Memory) : Claim.InBounds (s.stored n m) n ↔ Claim.InBounds s n := by
  rw [Claim.InBounds, State.slot_stored (State.lt_length_of_live hl)]
  rfl

theorem pixelAddress_stored (hl : (s.slot n).isLive) (m : Memory) :
    Claim.pixelAddress (s.stored n m) n = Claim.pixelAddress s n := by
  rw [Claim.pixelAddress, State.slot_stored (State.lt_length_of_live hl)]
  rfl

/-- A PBGET after a store gets the pixel word of the memory stored. -/
theorem exec_pbget_of_stored (hn : n.toNat < s.cfg.numSlots) (hl : (s.slot n).isLive) (hin : Claim.InBounds s n) (m : Memory) :
    ∃ u, exec (.pbget n) (s.stored n m) = .next u ∧ u.code = .ok ∧
      u.r0 = 0#32 ++ Claim.pixelWord s.cfg.endian (Claim.withMem (s.slot n) m) (Claim.pixelAddress s n) := by
  obtain ⟨-, hpbget⟩ := pbgetReadsThePixelWord
  obtain ⟨-, -, hgot⟩ := hpbget (s.stored n m) n (State.stored_starts hn m)
  refine ⟨_, hgot (State.stored_live hl m) ((inBounds_stored hl m).mpr hin), rfl, ?_⟩
  rw [← State.slot_stored (State.lt_length_of_live hl), ← pixelAddress_stored hl m]
  rfl

/-- A PBREAD after a store outputs the bytes of the memory stored. -/
theorem exec_pbread_of_stored (hn : n.toNat < s.cfg.numSlots) (hl : (s.slot n).isLive) (m : Memory) :
    ∃ u st o, exec (.pbread n) (s.stored n m) = .next u ∧ u.code = .ok ∧ u.replies = .command st o :: (s.stored n m).replies ∧
      o.length = (Claim.byteSize (s.slot n)).toNat ∧
      ∀ k : Nat, (k : Int) < Claim.byteSize (s.slot n) → o[k]? = some ((Claim.withMem (s.slot n) m).byte k) := by
  obtain ⟨-, hpbread⟩ := pbreadReturnsEveryByte
  obtain ⟨-, hlive⟩ := hpbread (s.stored n m) n (State.stored_starts hn m)
  obtain ⟨o, hread, hlen, hbyte⟩ := hlive (State.stored_live hl m)
  rw [State.byteSize_stored hl] at hlen hbyte
  rw [State.slot_stored (State.lt_length_of_live hl)] at hbyte
  exact ⟨_, _, o, hread, rfl, rfl, hlen, hbyte⟩

/-- A PBGET of another pixel is the same before and after a store that changed the word of the operands' pixel alone. -/
theorem exec_pbget_other_pixel {s' : State} {m : Memory} (hs' : Claim.Starts s' n) (hslot : s'.slot n = s.slot n)
    (hl : (s'.slot n).isLive) (hin : Claim.InBounds s n)
    (hne : Claim.firstS32 s' ≠ Claim.firstS32 s ∨ Claim.secondS32 s' ≠ Claim.secondS32 s)
    (hbyte : ∀ a, ¬ (Claim.pixelAddress s n ≤ a ∧ a < Claim.pixelAddress s n + 4) →
      (Claim.withMem (s'.slot n) m).byte a = (s'.slot n).byte a) :
    ∃ v v', exec (.pbget n) s' = .next v ∧ exec (.pbget n) (s'.stored n m) = .next v' ∧ v'.code = v.code ∧ v'.r0 = v.r0 := by
  obtain ⟨-, hpbget⟩ := pbgetReadsThePixelWord
  obtain ⟨-, hrefused, hgot⟩ := hpbget s' n hs'
  obtain ⟨-, hrefused', -⟩ := hpbget (s'.stored n m) n (State.stored_starts hs'.1 m)
  rcases Classical.em (Claim.InBounds s' n) with hin' | hout
  · obtain ⟨v', hget', hok', hr0'⟩ := exec_pbget_of_stored hs'.1 hl hin' m
    refine ⟨_, v', hgot hl hin', hget', hok', hr0'.trans (congrArg (0#32 ++ ·) ?_)⟩
    have hdisjoint := pixelAddress_disjoint hslot hin hin' hne
    exact pixelWord_congr _ fun k hk => hbyte _ (by omega)
  · have hout' : ¬ Claim.InBounds (s'.stored n m) n := mt (inBounds_stored hl m).mp hout
    exact ⟨_, _, hrefused hl hout, hrefused' (State.stored_live hl m) hout', rfl, rfl⟩

end

/-- Settles O53: the output's bytes are the payload's, one by one. -/
theorem fillingThenReadingReturnsThePayload : Obligations.FillingThenReadingReturnsThePayload := by
  intro s n p hs hn hl hp
  obtain ⟨m, hfill, hbyte⟩ := exec_pbfill_stored hn hl hp.le
  obtain ⟨u, st, o, hread, hok, hreply, hlen, ho⟩ := exec_pbread_of_stored (s := { s with payload := p }) hn hl m
  have heq : o = p := by
    refine List.ext_getElem? fun k => ?_
    rcases Nat.lt_or_ge k p.length with hk | hk
    · have hbyte' := hbyte k
      rw [List.getElem?_eq_getElem hk] at hbyte' ⊢
      rw [ho k (by change _ < Claim.byteSize (s.slot n); omega)]
      exact congrArg some hbyte'
    · have hk' : o.length ≤ k := by
        rw [hlen]
        change (Claim.byteSize (s.slot n)).toNat ≤ k
        omega
      rw [List.getElem?_eq_none hk, List.getElem?_eq_none hk']
  exact ⟨_, u, st, hfill, hread, rfl, hok, heq ▸ hreply⟩

/-- Settles O54: each side is read byte by byte at the pixel's address. -/
theorem wordAndByteAccessesAgree : Obligations.WordAndByteAccessesAgree := by
  intro s n hs hn hl hin
  refine ⟨fun p b0 b1 b2 b3 hp h0 h1 h2 h3 => ?_, ?_⟩
  · obtain ⟨m, hfill, hbyte⟩ := exec_pbfill_stored hn hl hp
    obtain ⟨u, hget, hok, hr0⟩ := exec_pbget_of_stored (s := { s with payload := p }) hn hl hin m
    have hword : Claim.pixelWord s.cfg.endian (Claim.withMem (s.slot n) m) (Claim.pixelAddress s n) =
        Claim.wordInOrder s.cfg.endian b0 b1 b2 b3 := by
      rw [Claim.pixelWord, hbyte, hbyte, hbyte, hbyte, h0, h1, h2, h3]
    exact ⟨_, u, hfill, hget, hok, hr0.trans (congrArg _ hword)⟩
  · obtain ⟨m, hset, hbyte⟩ := exec_pbset_stored ⟨hn, hs.port⟩ hl hin
    obtain ⟨u, st, o, hread, -, hreply, -, ho⟩ := exec_pbread_of_stored hn hl m
    refine ⟨_, u, st, o, hset, hread, hreply, fun k hk => ?_⟩
    have hinside := pixelAddress_inside hin
    rw [ho _ (by push_cast; omega), hbyte, if_pos (by omega), Nat.add_sub_cancel_left]

/-- Settles O52: the pixel's own word is the value's; the words of other pixels share no byte with it. -/
theorem settingThenGettingReturnsThePixel : Obligations.SettingThenGettingReturnsThePixel := by
  intro s n hs hn hl hin
  obtain ⟨m, hset, hbyte⟩ := exec_pbset_stored ⟨hn, hs.port⟩ hl hin
  obtain ⟨u, hget, -, hr0⟩ := exec_pbget_of_stored hn hl hin m
  refine ⟨_, u, hset, hget, ?_, fun a0' a1' hne => ?_⟩
  · have hword : Claim.pixelWord s.cfg.endian (Claim.withMem (s.slot n) m) (Claim.pixelAddress s n) = s.a2.extractLsb' 0 32 :=
      pixelWord_of_image fun k hk => by rw [hbyte, if_pos (by omega), Nat.add_sub_cancel_left]
    rw [hr0, hword]
    exact packIntPair_low _ _
  · exact exec_pbget_other_pixel (s := s) (s' := { s with a0 := a0', a1 := a1' }) ⟨hn, hs.port⟩ rfl hl hin hne
      fun a ha => (hbyte a).trans (if_neg ha)

/-! ### Freeing twice (60_exceptions.md section 5) -/

/-- The slot PBFREE names has no dimensions after it, whether or not it was live (10_state.md R32). -/
theorem pbfreeEffect_dimensions {s : State} {n : SlotField} (hs : s.Inv) (hn : n.toNat < s.slots.length) :
    ((pbfreeEffect n s).slot n).w = 0 ∧ ((pbfreeEffect n s).slot n).h = 0 := by
  by_cases hl : (s.slot n).isLive
  · rw [pbfreeEffect_of_live hl, State.slot_succeed, State.slot_setSlot_same s n _ hn]
    exact ⟨rfl, rfl⟩
  · rw [pbfreeEffect_of_not_live hl]
    exact hs.dimensions_of_not_live hl

/-- Settles O56: after the first PBFREE the slot is not live, so the second only reports. -/
theorem freeingTwiceReleasesOnce : Obligations.FreeingTwiceReleasesOnce := by
  intro s n hs hn
  have htable : n.toNat < s.slots.length := hs.table ▸ hn
  have hgone : ¬ ((pbfreeEffect n s).slot n).isLive := pbfreeEffect_not_live htable
  obtain ⟨hw, hh⟩ := pbfreeEffect_dimensions hs htable
  refine ⟨pbfreeEffect n s, Claim.completed (pbfreeEffect n s) [], exec_pbu rfl ⟨hn, hs.port⟩, ?_, rfl, rfl, hgone, hw, hh,
    rfl, rfl⟩
  rw [exec_pbu rfl ⟨by rwa [pbfreeEffect_cfg], pbfreeEffect_payload n s⟩, effectOf, pbfreeEffect_of_not_live hgone,
    State.succeed_eq_completed]

end Sys2Proof.Machine

/-! ## MS2T (40_codec.md section 5; IEEE 754 as log entry 15 has it): the facts its statements need, then the statements -/

namespace Sys2Proof.Machine

/-! ### A sign put on a number -/

/-- The sign of a binary64 number (IEEE 754). -/
def signOf (neg : Bool) : ℚ := if neg then -1 else 1

theorem signOf_abs (neg : Bool) (x : ℚ) : |signOf neg * x| = |x| := by
  cases neg <;> simp [signOf]

theorem signOf_mul_self (neg : Bool) : signOf neg * signOf neg = 1 := by
  cases neg <;> norm_num [signOf]

theorem signOf_mul_cancel {neg : Bool} {x y : ℚ} (h : signOf neg * x = signOf neg * y) : x = y := by
  have hne : signOf neg ≠ 0 := fun h0 => by simpa [h0] using signOf_mul_self neg
  exact mul_left_cancel₀ hne h

theorem signOf_mul_mul_le (a b : Bool) {x : ℚ} (hx : 0 ≤ x) : signOf a * (signOf b * x) ≤ x :=
  calc signOf a * (signOf b * x) ≤ |signOf a * (signOf b * x)| := le_abs_self _
    _ = x := by rw [signOf_abs, signOf_abs, abs_of_nonneg hx]

/-- The distance of a number to one of a sign, taken on the other side of that sign. -/
theorem abs_sub_signOf_mul (neg : Bool) (v x : ℚ) : |v - signOf neg * x| = |signOf neg * v - x| := by
  rw [← signOf_abs neg (v - signOf neg * x), mul_sub, ← mul_assoc, signOf_mul_self, one_mul]

/-! ### The finite binary64 numbers -/

/-- A pattern's number is what the machine reads it as. -/
theorem numberOf_eq_value {v : Dword} (h : Claim.FiniteNumber v) : Claim.numberOf v = (f64 v).value := by
  obtain ⟨m, e, hf, -, -, -, hfields⟩ := f64_finite h
  rw [hf, F64.value_finite, Claim.numberOf]
  rcases hfields with ⟨h0, rfl, rfl⟩ | ⟨h0, rfl, rfl⟩
  · rw [if_pos h0]
  · rw [if_neg h0]
    push_cast
    rfl

/-- A finite number is a sign, 53 bits and an exponent from -1074 to 971 (IEEE 754). -/
theorem numberOf_cases {v : Dword} (h : Claim.FiniteNumber v) :
    ∃ m : Nat, ∃ e : Int, Claim.numberOf v = signOf (v.getLsbD 63) * (m * 2 ^ e) ∧ m < 2 ^ 53 ∧ -1074 ≤ e ∧ e ≤ 971 := by
  obtain ⟨m, e, hf, hm, he, he', -⟩ := f64_finite h
  exact ⟨m, e, by rw [numberOf_eq_value h, hf]; rfl, hm, he, he'⟩

/-- The pattern of ± m * 2^e, for 53 bits m and an exponent e of which m is the normal form, or the lowest (IEEE 754). -/
def patternOf (neg : Bool) (m : Nat) (e : Int) : Dword :=
  BitVec.ofBool neg ++ BitVec.ofNat 11 (if m < 2 ^ 52 then 0 else (e + 1075).toNat) ++ BitVec.ofNat 52 m

theorem patternOf_fields (neg : Bool) (m : Nat) (e : Int) :
    (patternOf neg m e).getLsbD 63 = neg ∧
    (patternOf neg m e).extractLsb' 52 11 = BitVec.ofNat 11 (if m < 2 ^ 52 then 0 else (e + 1075).toNat) ∧
    (patternOf neg m e).extractLsb' 0 52 = BitVec.ofNat 52 m ∧ (patternOf neg m e).getLsbD 0 = decide (m % 2 = 1) := by
  unfold patternOf
  refine ⟨?_, ?_, ?_, ?_⟩
  · simp only [BitVec.getLsbD_append]
    simp
  · rw [BitVec.extractLsb'_append_eq_of_le (by decide), BitVec.extractLsb'_append_eq_of_add_le (by decide),
      BitVec.extractLsb'_eq_self]
  · rw [BitVec.extractLsb'_append_eq_of_add_le (by decide), BitVec.extractLsb'_eq_self]
  · simp only [BitVec.getLsbD_append, BitVec.getLsbD_ofNat]
    simp

/-- Where m and e are in their ranges, the pattern is finite and denotes ± m * 2^e. -/
theorem patternOf_spec {neg : Bool} {m : Nat} {e : Int} (hm : m < 2 ^ 53) (he : -1074 ≤ e) (he' : e ≤ 971)
    (hn : 2 ^ 52 ≤ m ∨ e = -1074) :
    Claim.FiniteNumber (patternOf neg m e) ∧ Claim.numberOf (patternOf neg m e) = signOf neg * (m * 2 ^ e) := by
  obtain ⟨hsign, hexp, hfrac, -⟩ := patternOf_fields neg m e
  rw [Claim.FiniteNumber, Claim.numberOf, hsign, hexp, hfrac]
  by_cases hsub : m < 2 ^ 52
  · obtain rfl : e = -1074 := hn.resolve_left (by omega)
    have hm' : (BitVec.ofNat 52 m).toNat = m := by rw [BitVec.toNat_ofNat, Nat.mod_eq_of_lt hsub]
    rw [if_pos hsub, if_pos rfl, hm']
    exact ⟨by decide, rfl⟩
  · have hb : (BitVec.ofNat 11 (e + 1075).toNat).toNat = (e + 1075).toNat := by
      rw [BitVec.toNat_ofNat, Nat.mod_eq_of_lt (by omega)]
    have hm' : (2 ^ 52 + (BitVec.ofNat 52 m).toNat : ℚ) = m := by
      have hnat : 2 ^ 52 + m % 2 ^ 52 = m := by omega
      rw [BitVec.toNat_ofNat]
      exact_mod_cast hnat
    have hne : ∀ x : BitVec 11, x.toNat ≠ (e + 1075).toNat → BitVec.ofNat 11 (e + 1075).toNat ≠ x :=
      fun x hx h => hx (by rw [← h, hb])
    have hnotmax := hne 0x7FF#11 (by change 2047 ≠ _; omega)
    have hnotzero := hne 0#11 (by change 0 ≠ _; omega)
    have he1 : ((e + 1075).toNat : Int) - 1075 = e := by omega
    rw [if_neg hsub, if_neg hnotzero, hb, hm', he1]
    exact ⟨hnotmax, rfl⟩

/-! ### The nearest number -/

/-- Every finite number, with its sign changed or not, is a multiple of 2^E or below 2^52 of them; of the lowest place each is a
multiple. -/
theorem grid_or_small {v : Dword} (h : Claim.FiniteNumber v) (neg : Bool) (E : Int) :
    (∃ j : Int, signOf neg * Claim.numberOf v = j * 2 ^ E) ∨ (E ≠ -1074 ∧ signOf neg * Claim.numberOf v < 2 ^ 52 * 2 ^ E) := by
  obtain ⟨m, e, hv, hm, he, -⟩ := numberOf_cases h
  rcases le_or_gt E e with hle | hlt
  · left
    obtain ⟨k, rfl⟩ := Int.le.dest hle
    refine ⟨(if neg then -1 else 1) * ((if v.getLsbD 63 then -1 else 1) * (m * 2 ^ k)), ?_⟩
    rw [hv, zpow_add₀ (by norm_num), zpow_natCast]
    push_cast
    simp only [signOf]
    ring
  · right
    refine ⟨by omega, ?_⟩
    have hm' : (m : ℚ) < 2 ^ 53 := by exact_mod_cast hm
    calc signOf neg * Claim.numberOf v ≤ m * 2 ^ e := hv ▸ signOf_mul_mul_le neg _ (by positivity)
      _ < 2 ^ 53 * 2 ^ e := mul_lt_mul_of_pos_right hm' (by positivity)
      _ ≤ 2 ^ 53 * 2 ^ (E - 1) := mul_le_mul_of_nonneg_left (zpow_le_zpow_right₀ (by norm_num) (by omega)) (by positivity)
      _ = 2 ^ 52 * 2 ^ E := by rw [zpow_sub₀ (by norm_num)]; ring

/-- A multiple of p within p/2 of X is a nearest of its multiples, and another is as near only at p/2. -/
theorem nearest_multiple {p X : ℚ} {m : Nat} {j : Int} (hp : 0 < p) (hnear : |X - m * p| ≤ p / 2) :
    |m * p - X| ≤ |j * p - X| ∧ (j * p ≠ m * p → |m * p - X| = |j * p - X| → |X - m * p| = p / 2) := by
  by_cases hj : j = m
  · rw [hj, Int.cast_natCast]
    exact ⟨le_rfl, fun hne => absurd rfl hne⟩
  · have hone : (1 : ℚ) ≤ |(j : ℚ) - m| := by exact_mod_cast Int.one_le_abs (sub_ne_zero.mpr hj)
    have hfar : p ≤ |j * p - m * p| := by
      rw [← sub_mul, abs_mul, abs_of_pos hp]
      exact le_mul_of_one_le_left hp.le hone
    have htri : |j * p - m * p| ≤ |j * p - X| + |X - m * p| := abs_sub_le _ _ _
    rw [abs_sub_comm (m * p) X]
    exact ⟨by linarith, fun _ heq => by linarith⟩

/-- The number at ± m steps of size 2^E that is nearest of those steps to ± X is nearest of all, and of two nearest the even. -/
theorem nearestNumber_of_multiple {neg : Bool} {m : Nat} {E : Int} {X : ℚ} {u : Dword} (hfin : Claim.FiniteNumber u)
    (hu : Claim.numberOf u = signOf neg * (m * 2 ^ E)) (hnear : |X - m * 2 ^ E| ≤ 2 ^ E / 2)
    (heven : |X - m * 2 ^ E| = 2 ^ E / 2 → u.getLsbD 0 = false) (hlow : E = -1074 ∨ 2 ^ 52 * 2 ^ E ≤ X) :
    Claim.NearestNumber (signOf neg * X) u := by
  have hp : (0 : ℚ) < 2 ^ E := by positivity
  have hu' : signOf neg * Claim.numberOf u = m * 2 ^ E := by rw [hu, ← mul_assoc, signOf_mul_self, one_mul]
  refine ⟨hfin, fun v hv => ?_⟩
  rw [abs_sub_signOf_mul, abs_sub_signOf_mul, hu']
  rcases grid_or_small hv neg E with ⟨j, hj⟩ | ⟨hE, hsmall⟩
  · rw [hj]
    obtain ⟨hle, htie⟩ := nearest_multiple (j := j) hp hnear
    exact ⟨hle, fun hne heq => heven (htie (fun h => hne (signOf_mul_cancel (hj.trans (h.trans hu'.symm)))) heq)⟩
  · have hX := hlow.resolve_left hE
    obtain ⟨hle, -⟩ := nearest_multiple (j := 2 ^ 52) hp hnear
    have hstep : |((2 ^ 52 : Int) : ℚ) * 2 ^ E - X| = X - 2 ^ 52 * 2 ^ E := by
      rw [Int.cast_pow, Int.cast_ofNat, abs_sub_comm, abs_of_nonneg (by linarith)]
    have hfar : |signOf neg * Claim.numberOf v - X| = X - signOf neg * Claim.numberOf v := by
      rw [abs_sub_comm, abs_of_nonneg (by linarith)]
    rw [hfar]
    rw [hstep] at hle
    exact ⟨by linarith, fun _ heq => by linarith⟩

/-- The pattern of the greatest finite number of a sign (IEEE 754). -/
def greatestOf (neg : Bool) : Dword := patternOf neg (2 ^ 53 - 1) 971

theorem greatestOf_spec (neg : Bool) :
    Claim.FiniteNumber (greatestOf neg) ∧ Claim.numberOf (greatestOf neg) = signOf neg * ((2 ^ 53 - 1) * 2 ^ (971 : Int)) := by
  obtain ⟨hfin, hval⟩ := patternOf_spec (neg := neg) (m := 2 ^ 53 - 1) (e := 971) (by decide) (by decide) (by decide) (by decide)
  refine ⟨hfin, hval.trans ?_⟩
  norm_num

/-- Every finite number is at most the greatest. -/
theorem numberOf_le_greatest {v : Dword} (h : Claim.FiniteNumber v) (neg : Bool) :
    signOf neg * Claim.numberOf v ≤ (2 ^ 53 - 1) * 2 ^ (971 : Int) := by
  obtain ⟨m, e, hv, hm, -, he⟩ := numberOf_cases h
  have hm' : (m : ℚ) ≤ 2 ^ 53 - 1 := by
    have : (m : ℚ) + 1 ≤ 2 ^ 53 := by exact_mod_cast hm
    linarith
  calc signOf neg * Claim.numberOf v ≤ m * 2 ^ e := hv ▸ signOf_mul_mul_le neg _ (by positivity)
    _ ≤ (2 ^ 53 - 1) * 2 ^ (971 : Int) :=
      mul_le_mul hm' (zpow_le_zpow_right₀ (by norm_num) he) (by positivity) (by norm_num)

/-- To a number beyond every finite one, the greatest of its sign is nearest, and no other is as near. -/
theorem nearestNumber_of_beyond {neg : Bool} {X : ℚ} (hX : (2 ^ 53 - 1) * 2 ^ (971 : Int) ≤ X) :
    Claim.NearestNumber (signOf neg * X) (greatestOf neg) := by
  obtain ⟨hfin, hu⟩ := greatestOf_spec neg
  refine ⟨hfin, fun v hv => ?_⟩
  have hv' := numberOf_le_greatest hv neg
  have hu' : signOf neg * Claim.numberOf (greatestOf neg) = (2 ^ 53 - 1) * 2 ^ (971 : Int) := by
    rw [hu, ← mul_assoc, signOf_mul_self, one_mul]
  rw [abs_sub_signOf_mul, abs_sub_signOf_mul, hu', abs_sub_comm, abs_of_nonneg (by linarith), abs_sub_comm _ X,
    abs_of_nonneg (by linarith)]
  refine ⟨by linarith, fun hne heq => absurd (signOf_mul_cancel (neg := neg) ?_) hne⟩
  rw [hu']
  linarith

/-! ### The machine's rounding (00_scope.md R14) -/

theorem lt_bitLength {m j : Nat} (h : 2 ^ j ≤ m) : j < bitLength m := by
  obtain ⟨-, hlt, -⟩ := bitLength_spec ((Nat.two_pow_pos j).trans_le h)
  exact (Nat.pow_lt_pow_iff_right (by decide)).mp (h.trans_lt hlt)

/-- ± m steps of size 2^E, rounded or not, has a pattern where it is below 2^1024; its last bit is 0 if m is even. -/
theorem exists_pattern (neg : Bool) {m : Nat} {E : Int} (hm : m ≤ 2 ^ 53) (hE : -1074 ≤ E) (hn : 2 ^ 52 ≤ m ∨ E = -1074)
    (hfits : (bitLength m : Int) + E ≤ 1024) :
    ∃ u, Claim.FiniteNumber u ∧ Claim.numberOf u = signOf neg * (m * 2 ^ E) ∧ (m % 2 = 0 → u.getLsbD 0 = false) := by
  rcases Nat.lt_or_ge m (2 ^ 53) with hlt | hge
  · have hE' : E ≤ 971 := by
      rcases hn with h | h
      · have := lt_bitLength h
        omega
      · omega
    obtain ⟨hfin, hval⟩ := patternOf_spec (neg := neg) hlt hE hE' hn
    obtain ⟨-, -, -, hlast⟩ := patternOf_fields neg m E
    exact ⟨_, hfin, hval, fun heven => by rw [hlast, heven]; rfl⟩
  · have := lt_bitLength hge
    obtain rfl : m = 2 ^ 53 := le_antisymm hm hge
    obtain ⟨hfin, hval⟩ := patternOf_spec (neg := neg) (m := 2 ^ 52) (e := E + 1) (by decide) (by omega) (by omega) (.inl le_rfl)
    obtain ⟨-, -, -, hlast⟩ := patternOf_fields neg (2 ^ 52) (E + 1)
    refine ⟨_, hfin, hval.trans ?_, fun _ => hlast⟩
    rw [zpow_add₀ (by norm_num)]
    push_cast
    ring

/-- A number rounded at its last place takes at most 53 bits there, and 53 unless the place is the lowest. -/
theorem shiftRne_bounds {mag k : Nat} {exp : Int} (h : lastPlace mag exp = exp + k) (h0 : 0 < mag ∨ exp ≤ -1021) :
    shiftRne mag k ≤ 2 ^ 53 ∧ (2 ^ 52 ≤ shiftRne mag k ∨ exp + k = -1074) := by
  obtain ⟨-, hhigh, hlow⟩ := lastPlace_spec mag exp h0
  obtain ⟨hnear, -⟩ := shiftRne_near mag k exp
  rw [h] at hhigh hlow
  have hp : (0 : ℚ) < 2 ^ (exp + k) := by positivity
  obtain ⟨hleft, hright⟩ := abs_le.mp hnear
  constructor
  · have : (shiftRne mag k : ℚ) * 2 ^ (exp + k) < (2 ^ 53 + 1) * 2 ^ (exp + k) := by linarith
    have : (shiftRne mag k : ℚ) < 2 ^ 53 + 1 := lt_of_mul_lt_mul_right this hp.le
    exact Nat.lt_succ_iff.mp (by exact_mod_cast this)
  · refine hlow.symm.imp_left fun hX => ?_
    have : (2 ^ 52 : ℚ) * 2 ^ (exp + k) < (shiftRne mag k + 1) * 2 ^ (exp + k) := by linarith
    have : (2 ^ 52 : ℚ) < shiftRne mag k + 1 := lt_of_mul_lt_mul_right this hp.le
    exact Nat.lt_succ_iff.mp (by exact_mod_cast this)

/-- Where rounding overflows, the number is beyond every finite one. -/
theorem beyond_of_overflow {mag k : Nat} {exp : Int} (h : lastPlace mag exp = exp + k) (h0 : 0 < mag ∨ exp ≤ -1021)
    (hover : 1024 < (bitLength (shiftRne mag k) : Int) + (exp + k)) : (2 ^ 53 - 1) * 2 ^ (971 : Int) ≤ (mag : ℚ) * 2 ^ exp := by
  obtain ⟨hm, -⟩ := shiftRne_bounds h h0
  obtain ⟨-, -, hlow⟩ := lastPlace_spec mag exp h0
  obtain ⟨hnear, -⟩ := shiftRne_near mag k exp
  rw [h] at hlow
  have hlen : bitLength (shiftRne mag k) ≤ 54 := bitLength_le (by omega)
  rcases lt_or_ge 971 (exp + (k : Int)) with hE | hE
  · have hX := hlow.resolve_left (by omega)
    have hstep : (2 : ℚ) ^ (971 + 1 : Int) ≤ 2 ^ (exp + k) := zpow_le_zpow_right₀ (by norm_num) (by omega)
    rw [zpow_add₀ (by norm_num), zpow_one] at hstep
    have hp : (0 : ℚ) < 2 ^ (971 : Int) := by positivity
    generalize (2 : ℚ) ^ (971 : Int) = p at hp hstep ⊢
    linarith
  · have hE : exp + (k : Int) = 971 := by omega
    have hm' : 2 ^ 53 ≤ shiftRne mag k := by
      by_contra hlt
      have := bitLength_le (not_le.mp hlt)
      omega
    have hp : (0 : ℚ) < 2 ^ (971 : Int) := by positivity
    rw [hE] at hnear
    generalize (2 : ℚ) ^ (971 : Int) = p at hp hnear ⊢
    obtain ⟨hleft, -⟩ := abs_le.mp hnear
    have hstep : (2 ^ 53 : ℚ) * p ≤ shiftRne mag k * p := mul_le_mul_of_nonneg_right (by exact_mod_cast hm') hp.le
    linarith

/-- The rounded number is the nearest, ties to even; where it overflows, the nearest finite one is the greatest of its sign. -/
theorem roundRne_nearest (neg : Bool) {mag k : Nat} {exp : Int} (h : lastPlace mag exp = exp + k) (h0 : 0 < mag ∨ exp ≤ -1021) :
    ∃ u, Claim.NearestNumber (signOf neg * (mag * 2 ^ exp)) u ∧
      ((∃ m e, roundRne neg mag exp = .finite neg m e ∧ (F64.finite neg m e).value = Claim.numberOf u) ∨
        (roundRne neg mag exp = .infinite neg ∧ u = greatestOf neg)) := by
  rw [roundRne_eq neg mag h]
  split
  · rename_i hover
    exact ⟨_, nearestNumber_of_beyond (beyond_of_overflow h h0 hover), .inr ⟨rfl, rfl⟩⟩
  · rename_i hfits
    obtain ⟨hE, -, hlow⟩ := lastPlace_spec mag exp h0
    obtain ⟨hm, hn⟩ := shiftRne_bounds h h0
    obtain ⟨hnear, heven⟩ := shiftRne_near mag k exp
    rw [h] at hE hlow
    obtain ⟨u, hfin, hval, hlast⟩ := exists_pattern neg hm hE hn (by omega)
    exact ⟨u, nearestNumber_of_multiple hfin hval hnear (fun htie => hlast (heven htie)) hlow,
      .inl ⟨_, _, rfl, by rw [hval]; rfl⟩⟩

/-! ### The product of MS2T -/

/-- The product with 10000 has its last place at or above its own exponent, so that rounding is one shift. -/
theorem lastPlace_product {v : Dword} {neg : Bool} {m : Nat} {e : Int} (h : Claim.FiniteNumber v) (hf : f64 v = .finite neg m e) :
    (0 < m * 5497558138880000 ∨ e + -39 ≤ -1021) ∧
      ∃ k : Nat, lastPlace (m * 5497558138880000) (e + -39) = e + -39 + k := by
  obtain ⟨m', e', hf', -, -, -, hfields⟩ := f64_finite h
  obtain ⟨-, rfl, rfl⟩ := F64.finite.inj (hf.symm.trans hf')
  have hplace : (0 < m) ∨ e = -1074 := by
    rcases hfields with ⟨-, -, he⟩ | ⟨-, hm, -⟩
    · exact .inr he
    · exact .inl (by omega)
  have hle : e + -39 ≤ lastPlace (m * 5497558138880000) (e + -39) := by
    unfold lastPlace
    rcases hplace with hm | he
    · have := lt_bitLength (m := m * 5497558138880000) (j := 52) (by omega)
      omega
    · omega
  obtain ⟨k, hk⟩ := Int.le.dest hle
  exact ⟨by omega, k, hk.symm⟩

/-- The product MS2T rounds is the exact product of its operand's number with 10000. -/
theorem exact_product {v : Dword} {neg : Bool} {m : Nat} {e : Int} (h : Claim.FiniteNumber v) (hf : f64 v = .finite neg m e) :
    signOf neg * ((m * 5497558138880000 : Nat) * 2 ^ (e + -39)) = Claim.numberOf v * 10000 := by
  have hval : Claim.numberOf v = signOf neg * (m * 2 ^ e) := by rw [numberOf_eq_value h, hf]; rfl
  have hten : (5497558138880000 : ℚ) * 2 ^ (-39 : Int) = 10000 := by norm_num
  rw [hval, zpow_add₀ (by norm_num), ← hten]
  push_cast
  ring

/-- The machine's product of a finite number with 10000 is the nearest finite number, or overflows where that is the greatest. -/
theorem mulRne_nearest {v : Dword} (h : Claim.FiniteNumber v) :
    ∃ u neg, Claim.NearestNumber (Claim.numberOf v * 10000) u ∧
      ((∃ m e, mulRne (f64 v) tenThousand = .finite neg m e ∧ (F64.finite neg m e).value = Claim.numberOf u) ∨
        (mulRne (f64 v) tenThousand = .infinite neg ∧ u = greatestOf neg)) := by
  obtain ⟨m, e, hf, -⟩ := f64_finite h
  obtain ⟨h0, k, hk⟩ := lastPlace_product h hf
  have hmul : mulRne (f64 v) tenThousand = roundRne (v.getLsbD 63) (m * 5497558138880000) (e + -39) := by
    rw [hf, tenThousand_eq, mulRne, Bool.bne_false]
  obtain ⟨u, hu, hcases⟩ := roundRne_nearest (v.getLsbD 63) hk h0
  rw [exact_product h hf] at hu
  exact ⟨u, _, hu, hmul ▸ hcases⟩

/-! ### The integer part -/

/-- The quotient of the machine is the integer part of the fraction (00_scope.md R14). -/
theorem tdiv_eq_truncate (a : Int) {d : Nat} (hd : 0 < d) : a.tdiv d = Claim.truncate ((a : ℚ) / d) := by
  have hd' : (0 : ℚ) < d := by exact_mod_cast hd
  unfold Claim.truncate
  rcases le_or_gt 0 a with ha | ha
  · have hpos : (0 : ℚ) ≤ (a : ℚ) / d := div_nonneg (by exact_mod_cast ha) hd'.le
    rw [if_pos hpos, Rat.floor_intCast_div_natCast, Int.tdiv_eq_ediv_of_nonneg ha]
  · have hneg : ¬ (0 : ℚ) ≤ (a : ℚ) / d := not_le.mpr (div_neg_of_neg_of_pos (by exact_mod_cast ha) hd')
    rw [if_neg hneg, Rat.ceil_intCast_div_natCast, ← Int.tdiv_eq_ediv_of_nonneg (by omega), Int.neg_tdiv, neg_neg]

/-- The integer part of a number in the signed 64-bit range is in that range. -/
theorem truncate_range {p : ℚ} (h : -2 ^ 63 ≤ p ∧ p < 2 ^ 63) : -2 ^ 63 ≤ Claim.truncate p ∧ Claim.truncate p < 2 ^ 63 := by
  obtain ⟨hlow, hhigh⟩ := h
  unfold Claim.truncate
  split
  · rename_i h0
    exact ⟨(by decide : (-2 ^ 63 : Int) ≤ 0).trans (Int.floor_nonneg.mpr h0), Int.floor_lt.mpr (by exact_mod_cast hhigh)⟩
  · rename_i h0
    have hceil : (-2 ^ 63 : ℚ) ≤ ⌈p⌉ := hlow.trans (Int.le_ceil p)
    have hneg : ⌈p⌉ ≤ 0 := Int.ceil_le.mpr (by rw [Int.cast_zero]; exact (not_le.mp h0).le)
    exact ⟨by exact_mod_cast hceil, hneg.trans_lt (by decide)⟩

/-- The whole ticks of a finite product in the signed 64-bit range are the integer part of its number. -/
theorem ticksOf_eq_truncate {neg : Bool} {m : Nat} {e : Int} {p : ℚ} (hp : (F64.finite neg m e).value = p)
    (h : -2 ^ 63 ≤ p ∧ p < 2 ^ 63) : ticksOf (.finite neg m e) = some (Claim.truncate p) := by
  subst hp
  rw [ticksOf_inside h, tdiv_eq_truncate _ (F64.den_pos _), F64.num_div_den]

/-! ### The statements -/

/-- MS2T where its product has whole ticks. -/
theorem exec_ms2t_of_some {s : State} {t : Int} (hp : s.payload = []) (h : ticksOfMillis (f64 s.a0) = some t) :
    exec .ms2t s = .next (Claim.completed { s with r0 := bits64 t } []) := by
  rw [exec_bcu rfl hp, effectOf, ms2tEffect, State.reg_a0, h]
  exact congrArg _ (State.succeed_eq_completed _ [])

/-- MS2T where it has none. -/
theorem exec_ms2t_of_none {s : State} (hp : s.payload = []) (h : ticksOfMillis (f64 s.a0) = none) :
    exec .ms2t s = .next (Claim.reported s .invalidArgument) := by
  rw [exec_bcu rfl hp, effectOf, ms2tEffect, State.reg_a0, h]
  exact congrArg _ (State.raise_eq_reported s _)

/-- Settles O34. -/
theorem ms2tRefusesNanAndInfinity : Obligations.Ms2tRefusesNanAndInfinity := by
  refine ⟨rfl, fun s hp hexp => exec_ms2t_of_none hp ?_⟩
  rcases f64_nan_or_infinite hexp with h | h <;> rw [h] <;> rfl

/-- The ticks of a finite operand are those of its product. -/
theorem ticksOfMillis_finite {v : Dword} (h : Claim.FiniteNumber v) :
    ticksOfMillis (f64 v) = ticksOf (mulRne (f64 v) tenThousand) := by
  obtain ⟨m, e, hf, -⟩ := f64_finite h
  rw [hf]
  rfl

/-- The greatest finite number of either sign is outside the signed 64-bit range. -/
theorem greatestOf_outside (neg : Bool) :
    ¬ (-2 ^ 63 ≤ Claim.numberOf (greatestOf neg) ∧ Claim.numberOf (greatestOf neg) < 2 ^ 63) := by
  obtain ⟨-, hval⟩ := greatestOf_spec neg
  have hbig : (2 : ℚ) ^ (11 : Int) ≤ 2 ^ (971 : Int) := zpow_le_zpow_right₀ (by norm_num) (by decide)
  rw [hval]
  generalize (2 : ℚ) ^ (971 : Int) = p at hbig
  norm_num at hbig
  rintro ⟨hlow, hhigh⟩
  cases neg with
  | false =>
    norm_num [signOf] at hhigh
    linarith
  | true =>
    norm_num [signOf] at hlow
    linarith

/-- Settles O35: the machine's product is the nearest number or overflows, where the greatest is nearest, far outside the range. -/
theorem ms2tRoundsToNearestThenTruncates : Obligations.Ms2tRoundsToNearestThenTruncates := by
  intro s hp hfin
  obtain ⟨u, neg, hu, hcases⟩ := mulRne_nearest hfin
  refine ⟨u, hu, fun hin => ?_, fun hout => ?_⟩
  · rcases hcases with ⟨m, e, hmul, hval⟩ | ⟨-, rfl⟩
    · obtain ⟨hlow, hhigh⟩ := truncate_range hin
      refine ⟨bits64 (Claim.truncate (Claim.numberOf u)), bits64_toInt hlow hhigh, exec_ms2t_of_some hp ?_⟩
      rw [ticksOfMillis_finite hfin, hmul, ticksOf_eq_truncate hval hin]
    · exact absurd hin (greatestOf_outside neg)
  · have hnone : ticksOf (mulRne (f64 s.a0) tenThousand) = none := by
      rcases hcases with ⟨m, e, hmul, hval⟩ | ⟨hmul, -⟩
      · rw [hmul, ticksOf_outside]
        rw [hval]
        rintro ⟨hlow, hhigh⟩
        exact hout.elim hlow.not_gt hhigh.not_ge
      · rw [hmul]
        rfl
    exact exec_ms2t_of_none hp (by rw [ticksOfMillis_finite hfin, hnone])

/-- A number of at most 53 bits, not 0, shifted up to exactly 53. -/
theorem exists_normal_form {n : Nat} (h0 : 0 < n) (h : n < 2 ^ 53) : ∃ d : Nat, d ≤ 52 ∧ 2 ^ 52 ≤ n * 2 ^ d ∧ n * 2 ^ d < 2 ^ 53 := by
  obtain ⟨hlow, hhigh, hpos⟩ := bitLength_spec h0
  obtain ⟨d, hd⟩ := Nat.le.dest (bitLength_le h)
  refine ⟨d, by omega, ?_, ?_⟩
  · calc 2 ^ 52 = 2 ^ (bitLength n - 1) * 2 ^ d := by rw [← pow_add]; congr 1; omega
      _ ≤ n * 2 ^ d := Nat.mul_le_mul_right _ hlow
  · calc n * 2 ^ d < 2 ^ bitLength n * 2 ^ d := Nat.mul_lt_mul_of_pos_right hhigh (Nat.two_pow_pos d)
      _ = 2 ^ 53 := by rw [← pow_add, hd]

/-- An integer is its sign on its absolute value. -/
theorem signOf_mul_abs (j : Int) : signOf (decide (j < 0)) * |(j : ℚ)| = j := by
  rcases lt_or_ge j 0 with hneg | hpos
  · have hj : (j : ℚ) < 0 := by exact_mod_cast hneg
    simp [signOf, hneg, abs_of_neg hj]
  · have hj : (0 : ℚ) ≤ j := by exact_mod_cast hpos
    simp [signOf, hpos.not_gt, abs_of_nonneg hj]

/-- An integer of at most 53 bits is a finite number. -/
theorem exists_numberOf_int {j : Int} (h : |j| < 2 ^ 53) : ∃ v, Claim.FiniteNumber v ∧ Claim.numberOf v = j := by
  rcases eq_or_ne j 0 with rfl | h0
  · obtain ⟨hfin, hval⟩ := patternOf_spec (neg := false) (m := 0) (e := -1074) (by decide) (by decide) (by decide) (.inr rfl)
    exact ⟨_, hfin, by rw [hval]; simp⟩
  · have hj : (j.natAbs : Int) < 2 ^ 53 := by rwa [Int.natCast_natAbs]
    obtain ⟨d, hd, hn, hm⟩ := exists_normal_form (Int.natAbs_pos.mpr h0) (by exact_mod_cast hj)
    obtain ⟨hfin, hval⟩ := patternOf_spec (neg := decide (j < 0)) (e := -d) hm (by omega) (by omega) (.inl hn)
    have hcancel : ((j.natAbs * 2 ^ d : Nat) : ℚ) * 2 ^ (-d : Int) = |(j : ℚ)| := by
      rw [zpow_neg, zpow_natCast, Nat.cast_mul, Nat.cast_pow, Nat.cast_ofNat, mul_inv_cancel_right₀ (by positivity),
        Nat.cast_natAbs, Int.cast_abs]
    exact ⟨_, hfin, by rw [hval, hcancel, signOf_mul_abs]⟩

theorem truncate_intCast (j : Int) : Claim.truncate (j : ℚ) = j := by
  unfold Claim.truncate
  split
  · exact Int.floor_intCast j
  · exact Int.ceil_intCast j

/-- Settles O36: the product is itself a number, so the nearest number is the product. -/
theorem wholeMillisecondsRoundTrip : Obligations.WholeMillisecondsRoundTrip := by
  intro s k hp hfin hk hsmall
  obtain ⟨u, ⟨hufin, hnear⟩, hin, -⟩ := ms2tRoundsToNearestThenTruncates s hp hfin
  obtain ⟨v, hvfin, hv⟩ := exists_numberOf_int (j := k * 10000) (by rwa [abs_mul])
  have hu : Claim.numberOf u = (k * 10000 : Int) := by
    have hzero := (hnear v hvfin).1
    rw [hv, hk] at hzero
    push_cast at hzero ⊢
    rw [sub_self, abs_zero] at hzero
    linarith [abs_nonpos_iff.mp hzero]
  have hbounds : -2 ^ 53 < k * 10000 ∧ k * 10000 < 2 ^ 53 := by
    rw [← abs_lt, abs_mul]
    exact hsmall
  have hrange : -2 ^ 63 ≤ Claim.numberOf u ∧ Claim.numberOf u < 2 ^ 63 := by
    rw [hu]
    exact ⟨by exact_mod_cast (by omega : -2 ^ 63 ≤ k * 10000), by exact_mod_cast (by omega : k * 10000 < 2 ^ 63)⟩
  obtain ⟨q, hq, hms2t⟩ := hin hrange
  rw [hu, truncate_intCast] at hq
  have hqword : q = BitVec.ofInt 64 (k * 10000) := by rw [← hq, BitVec.ofInt_toInt]
  obtain ⟨q', hq', ht2ms⟩ :=
    t2msTruncatesTowardZero.2 { Claim.completed { s with r0 := q } [] with a0 := q } rfl
  have hback : q'.toInt = k := by
    change q'.toInt = q.toInt.tdiv 10000 at hq'
    rw [hq', hq, Int.mul_tdiv_cancel k (by decide)]
  exact ⟨_, _, hms2t, by rw [hqword], ht2ms, rfl, hback⟩

end Sys2Proof.Machine
